-- ==== Sys2Proof/Word.lean ====
section
/-! DEFINITION. The word types of HLLCORE (`00_scope.md` R6 to R9, `30_encoding.md` R60 and R62).
Bits are numbered from 0 at the least significant end (R7). -/

namespace Sys2Proof

/-- One cell of the register file: `REG_W = 8` bits, unsigned (R6, R22). -/
abbrev Byte := BitVec 8

/-- A 32-bit hash, the operand of `ADD` (R6, R9). -/
abbrev Hash := BitVec 32

/-- A command word, `CMD_W = 40` bits (R60). -/
abbrev CmdWord := BitVec 40

/-- A response word, `RSP_W = 68` bits (R62). -/
abbrev RspWord := BitVec 68

/-- The data field of a response, 64 bits (R62). -/
abbrev Data := BitVec 64

/-- The stored precision `p`, 5 bits (R24). -/
abbrev Precision := BitVec 5

end Sys2Proof
end

