-- ==== Sys2Proof/Config.lean ====
section
/-! DEFINITION. The implementation parameters of HLLCORE, each with the value `00_scope.md` R6 gives it.
The widths `HASH_W`, `REG_W`, `CMD_W` and `RSP_W` are the types of `Sys2Proof/Word.lean`.
The two OPEN parameters lie outside the block: `HASH32` is an argument of `Pseudo.expand`
(`Sys2Proof/Machine/Assembler.lean`, log entry 12), and `BUS_MAP` is read by no rule (R44, log entry 13).
The model needs no free value: the spec leaves no command's result open (`93_implementation_defined.md`). -/

namespace Sys2Proof.Config

/-- `PMIN`, the least legal precision (R6, R101). -/
def pMin : Nat := 4

/-- `PMAX`, the greatest legal precision (R6, R101). -/
def pMax : Nat := 16

/-- `CNT_W`, the width of a register count: `2^q` with `q >= CNT_W` is an `Overflow` (R6, R82). -/
def cntW : Nat := 32

/-- `M(p) = 2^p`, the register count for precision `p` (R6). -/
def regCount (p : Nat) : Nat := 2 ^ p

/-- `RMAX(p) = 33 - p`, the greatest rank (R6, R87). -/
def rankMax (p : Nat) : Nat := 33 - p

end Sys2Proof.Config
end

