-- ==== Sys2Proof/Syntax.lean ====
section
/-! DEFINITION. The syntax: the five commands (one constructor per row of `spec/opcode_table.json`), the
assembler's lines (`30_encoding.md` R69), the pseudo-instructions (R70), the rows of the opcode table (R64)
and the reasons a word is illegal (R66). -/

namespace Sys2Proof

/-- A decoded command (R64). Each operand has exactly the width of its field (R61, R63), so every term of
this type is one the encoding can carry. -/
inductive Instr where
  /-- `INIT v`: `v = arg[31:0]`, the requested precision. -/
  | init (v : BitVec 32)
  /-- `ADD h`: `h = arg[31:0]`, the hash. -/
  | add (h : Hash)
  /-- `EST`: no operand. -/
  | est
  /-- `CNT`: no operand. -/
  | cnt
  /-- `RDREG i`: `idx = arg[15:0]`, a cell index. -/
  | rdreg (idx : BitVec 16)
  deriving DecidableEq, Repr

/-- Why a 40-bit word is illegal (R66). The response is the same for each (R154). -/
inductive DecodeError where
  /-- The opcode is 0x00 or 0x06 to 0xFF. -/
  | unusedOpcode (op : BitVec 8)
  /-- An `EST` or `CNT` word whose `arg` is not 0. -/
  | operandNotZero (op : BitVec 8) (arg : BitVec 32)
  /-- An `RDREG` word whose `arg[31:16]` is not 0. -/
  | indexHighBitsNotZero (high : BitVec 16)
  deriving DecidableEq, Repr

/-- One row of the opcode table: a word `w` selects it when `w & mask = match` (R64). -/
structure OpcodeRow where
  mnemonic : String
  pattern : CmdWord
  mask : CmdWord
  deriving DecidableEq, Repr

/-- One line of assembly after reading (R69): operands are the numbers as written, of any size. -/
inductive AsmLine where
  | init (v : Nat)
  | add (h : Nat)
  | est
  | cnt
  | rdreg (i : Nat)
  /-- `.word 0x..........`, how tests write illegal words (R69). DESIGN CHOICE: R69 does not say whether a legal
  word may be written so, and the model takes any 40-bit word (log entry 19). -/
  | word (w : Nat)
  deriving DecidableEq, Repr

/-- The pseudo-instructions of R70; `α` is the host's type of values. -/
inductive Pseudo (α : Type) where
  | addv (value : α)
  | new (v : Nat)
  | estimate
  | registerCount
  deriving DecidableEq, Repr

end Sys2Proof
end

