-- ==== Sys2Proof/WellFormed.lean ====
section
/-! DEFINITION. Well-formed assembly lines: every operand lies in the range `30_encoding.md` R69 gives it.
An `Instr` needs no check of its own: its operands have the width of their fields (log entry 17). -/

namespace Sys2Proof

/-- The operand ranges the assembler accepts (R69). For `.word`, whose use R69 gives for illegal words only, every
40-bit word is accepted, a legal one among them: DESIGN CHOICE (log entry 19). -/
def AsmLine.wellFormed : AsmLine → Bool
  | .init v => decide (v < 2 ^ 32)
  | .add h => decide (h < 2 ^ 32)
  | .est => true
  | .cnt => true
  | .rdreg i => decide (i < 2 ^ 16)
  | .word w => decide (w < 2 ^ 40)

end Sys2Proof
end

