-- ==== Sys2Proof/Decode.lean ====
section
/-! DEFINITION. Decoding and encoding of command words (`30_encoding.md` R60 to R67). Decoding is total: a
40-bit word is one command or is rejected by name. -/

namespace Sys2Proof

/-- `op = cmd[39:32]` (R60). -/
def opField (w : CmdWord) : BitVec 8 := w.extractLsb' 32 8

/-- `arg = cmd[31:0]` (R60). -/
def argField (w : CmdWord) : BitVec 32 := w.extractLsb' 0 32

/-- The word `{op, arg}` (R60). -/
def makeWord (op : BitVec 8) (arg : BitVec 32) : CmdWord := op ++ arg

/-- Format N: `arg` must be 0 (R61). -/
def decodeNoOperand (i : Instr) (w : CmdWord) : Except DecodeError Instr :=
  if argField w = 0 then .ok i else .error (.operandNotZero (opField w) (argField w))

/-- Format I: `arg[31:16]` must be 0 and `idx = arg[15:0]` (R61, R63). -/
def decodeIndex (w : CmdWord) : Except DecodeError Instr :=
  if (argField w).extractLsb' 16 16 = 0 then .ok (.rdreg ((argField w).extractLsb' 0 16))
  else .error (.indexHighBitsNotZero ((argField w).extractLsb' 16 16))

/-- The decoder (R64, R66). -/
def decode (w : CmdWord) : Except DecodeError Instr :=
  if opField w = 0x01 then .ok (.init (argField w))
  else if opField w = 0x02 then .ok (.add (argField w))
  else if opField w = 0x03 then decodeNoOperand .est w
  else if opField w = 0x04 then decodeNoOperand .cnt w
  else if opField w = 0x05 then decodeIndex w
  else .error (.unusedOpcode (opField w))

/-- The encoder, from the patterns of R65 and the words of R69. -/
def encode : Instr → CmdWord
  | .init v => makeWord 0x01 v
  | .add h => makeWord 0x02 h
  | .est => makeWord 0x03 0
  | .cnt => makeWord 0x04 0
  | .rdreg idx => makeWord 0x05 (idx.setWidth 32)

/-- The opcode table as R64 prints it. -/
def opcodeTable : List OpcodeRow :=
  [ ⟨"INIT", 0x0100000000, 0xFF00000000⟩,
    ⟨"ADD", 0x0200000000, 0xFF00000000⟩,
    ⟨"EST", 0x0300000000, 0xFFFFFFFFFF⟩,
    ⟨"CNT", 0x0400000000, 0xFFFFFFFFFF⟩,
    ⟨"RDREG", 0x0500000000, 0xFFFFFF0000⟩ ]

/-- `w` selects row `r` (R64). -/
def OpcodeRow.selects (r : OpcodeRow) (w : CmdWord) : Bool := decide (w &&& r.mask = r.pattern)

/-- The mnemonic whose row a command's words select (R64). -/
def Instr.mnemonic : Instr → String
  | .init _ => "INIT"
  | .add _ => "ADD"
  | .est => "EST"
  | .cnt => "CNT"
  | .rdreg _ => "RDREG"

/-- The command word whose bits the opcode table numbers as `w`, given `nbits` of them; the bits above are 0. -/
def tableWord (nbits w : Nat) : CmdWord := BitVec.ofNat 40 (w % 2 ^ nbits)

/-- What the decoder reads from such a word. -/
def decodeTableWord (nbits w : Nat) : Option Instr :=
  match decode (tableWord nbits w) with
  | .ok i => some i
  | .error _ => none

end Sys2Proof
end

