-- ==== Sys2Proof/Machine/State.lean ====
section
/-! DEFINITION. The state of HLLCORE (`10_state.md` R20 to R35) with the host's two ports beside it, the
responses (`60_exceptions.md` R150 to R152), the reasons a step can stop, and the state after reset (R170). -/

namespace Sys2Proof.Machine

/-- The register file (R22, R40) as plain data: the cells that do not read 0, as (index, value) pairs in
rising order of index; a cell that is not listed reads `RegFile.unlisted` (log entry 7). -/
abbrev RegFile := List Host.Cell

/-- What `INIT` constructs (R12, R20): the precision and the register file of `2^p` cells. -/
structure Estimator where
  /-- `p`, 5 bits, 4 to 16 in every reachable state (R24). -/
  p : Precision
  /-- `regs[0 .. 2^p - 1]` (R22). -/
  regs : RegFile
  deriving DecidableEq, Repr

/-- The block's own state, in the shape R21 suggests. `unconfigured` is `cfg = 0`, where `p` and `regs` hold
no value (R26, log entry 1); `configured` is `cfg = 1`. -/
inductive Block where
  | unconfigured
  | configured (e : Estimator)
  deriving DecidableEq, Repr

/-- What the host can send (R179): a command word, or the reset input (R170). -/
inductive HostInput where
  | command (w : CmdWord)
  | reset
  deriving DecidableEq, Repr

/-- The statuses of R151. Codes 6 to 15 are never produced, so they have no name. -/
inductive Status where
  | ok
  | invalidPrecision
  | overflow
  | illegalCmd
  | notConfigured
  | badIndex
  deriving DecidableEq, Repr

/-- A response before it is laid out as a 68-bit word (R62). -/
structure Response where
  status : Status
  data : Data
  deriving DecidableEq, Repr

/-- The five errors of R151, with what each carries (R152). -/
inductive ErrorCause where
  /-- `INIT` with `v` outside 4..16; carries `v` (R156). -/
  | invalidPrecision (v : BitVec 32)
  /-- `INIT` whose register count does not fit; never produced (R157). -/
  | overflow
  /-- A word that matches no row of the opcode table (R154). -/
  | illegalCmd
  /-- `ADD`, `EST`, `CNT` or `RDREG` while `cfg = 0` (R155). -/
  | notConfigured
  /-- `RDREG` with `idx >= 2^p` (R158). -/
  | badIndex
  deriving DecidableEq, Repr

/-- The reasons the machine could stop with a fault. There is none: every word in every state has one next
state and one response (R11, R66, R177), so nothing raises a fault, which is neither safe nor unsafe. -/
inductive Fault where
  deriving DecidableEq, Repr

/-- The reasons a command could have no meaning. -/
inductive Refusal where
  /-- Raised by an arm of `exec` for a command that has no meaning yet (safe: the run stops). No arm raises
  it: all five commands have their meaning. -/
  | notModelled (mnemonic : String)
  deriving DecidableEq, Repr

/-- The whole state. `block` is all the architectural state there is (R20, R28, R29); `inputs` and
`responses` are the host's side of the ports and the model's own fields (log entries 2 and 4). -/
structure State where
  /-- `cfg`, `p` and `regs` (R20). -/
  block : Block
  /-- What the host has issued and the block has not yet performed, oldest first (R11, R27, R179). -/
  inputs : List HostInput
  /-- Every response given so far, oldest first: one per command (R62). -/
  responses : List Response
  deriving DecidableEq, Repr

/-- The machine right after reset: `cfg = 0`, `p` and `regs` hold no value (R35, R170, R171); the host has
issued nothing and nothing has been answered (log entries 2 and 4). -/
def State.reset : State := { block := .unconfigured, inputs := [], responses := [] }

end Sys2Proof.Machine
end

