-- ==== Sys2Proof/Machine/Ops.lean ====
section
/-! DEFINITION. The named operations: access to the register file (`10_state.md` R22, R23, `20_memory.md`),
responding and raising an error (`00_scope.md` R8, `60_exceptions.md` R150 to R153), construction and reset. -/

namespace Sys2Proof.Machine

/-! ### The register file -/

/-- What a cell that is not listed reads as: 0, the value a successful `INIT` writes to every cell (R100). -/
def RegFile.unlisted : Byte := 0

/-- The register file right after a successful `INIT`: every cell 0 (R100). -/
def RegFile.cleared : RegFile := []

/-- `regs[i]`, the read of one cell (R8); it has no side effect (R48). -/
def RegFile.read : RegFile → Nat → Byte
  | [], _ => RegFile.unlisted
  | (j, v) :: rest, i => if j = i then v else RegFile.read rest i

/-- The list with `(i, v)` in front, unless `v` is what an unlisted cell reads as. -/
def RegFile.cons (i : Nat) (v : Byte) (rest : RegFile) : RegFile :=
  if v = RegFile.unlisted then rest else (i, v) :: rest

/-- `regs[i] <- v`, the write of one cell (R8), keeping the canonical form. -/
def RegFile.write : RegFile → Nat → Byte → RegFile
  | [], i, v => RegFile.cons i v []
  | (j, u) :: rest, i, v =>
    if i < j then RegFile.cons i v ((j, u) :: rest)
    else if i = j then RegFile.cons i v rest
    else (j, u) :: RegFile.write rest i v

/-- The canonical form: indexes strictly rising, and no entry equal to what an unlisted cell reads as. -/
abbrev RegFile.wf (regs : RegFile) : Prop :=
  regs.Pairwise (fun x y => x.1 < y.1) ∧ ∀ c ∈ regs, c.2 ≠ RegFile.unlisted

/-- `m = 2^p`, the number of cells (R8, R22). -/
def Estimator.m (e : Estimator) : Nat := Config.regCount e.p.toNat

/-- The whole register vector `regs[0], ..., regs[m-1]`, in index order (R22). -/
def Estimator.cells (e : Estimator) : List Byte := (List.range e.m).map (RegFile.read e.regs)

/-! ### Responses -/

/-- The status codes of R151. -/
def Status.code : Status → BitVec 4
  | .ok => 0
  | .invalidPrecision => 1
  | .overflow => 2
  | .illegalCmd => 3
  | .notConfigured => 4
  | .badIndex => 5

/-- The 68-bit response word `{status, data}` (R62). -/
def Response.word (r : Response) : RspWord := r.status.code ++ r.data

/-- The response each error gives: its status, and the data R152 lists for it. -/
def ErrorCause.response : ErrorCause → Response
  | .invalidPrecision v => ⟨.invalidPrecision, v.setWidth 64⟩
  | .overflow => ⟨.overflow, 0⟩
  | .illegalCmd => ⟨.illegalCmd, 0⟩
  | .notConfigured => ⟨.notConfigured, 0⟩
  | .badIndex => ⟨.badIndex, 0⟩

/-- `respond(st, d)`: the command's one response (R8, R62). -/
def State.respond (st : Status) (d : Data) (s : State) : State :=
  { s with responses := s.responses ++ [⟨st, d⟩] }

/-- `raise X(info)`: the error's response and no change to the block (R8, R150). This is all there is of
taking an exception: no state is saved and control goes nowhere (R161), and so there is no return (R162). -/
def State.raise (c : ErrorCause) (s : State) : State :=
  State.respond c.response.status c.response.data s

/-! ### The configuration check, construction and reset -/

/-- The configuration check of R153 (2): `NotConfigured` while `cfg = 0`, else the command on the estimator. -/
def State.withEstimator (s : State) (k : Estimator → State) : State :=
  match s.block with
  | .unconfigured => s.raise .notConfigured
  | .configured e => k e

/-- A new estimator of precision `p` in place of whatever the block held (R100, R102). -/
def State.construct (p : Precision) (s : State) : State :=
  { s with block := .configured { p := p, regs := RegFile.cleared } }

/-- Write one cell of estimator `e`, leaving its other cells and `p` as they are (R23). -/
def Estimator.writeCell (e : Estimator) (i : Nat) (v : Byte) : Estimator :=
  { e with regs := RegFile.write e.regs i v }

/-- The block holds `e`. -/
def State.setEstimator (e : Estimator) (s : State) : State := { s with block := .configured e }

/-- The reset input (R170): `cfg <- 0`, and `p` and `regs` hold no value; no response. -/
def State.applyReset (s : State) : State := { s with block := .unconfigured }

end Sys2Proof.Machine
end

