-- ==== Sys2Proof/Machine/Operands.lean ====
section
/-! DEFINITION. The datapath functions of `40_helpers.md` (R80 to R89): bit extraction, zero counts, rank and
maximum. They are pure; none reads or writes state. -/

namespace Sys2Proof.Machine

/-- `top_bits(v, n) = v >> (32 - n)`, the shift on naturals (R80). Defined for `n <= 32` only, and so typed
(U4, log entry 11). -/
def topBits (v : Hash) (n : Fin 33) : Nat := v.toNat >>> (32 - n.val)

/-- `bottom_bits(v, n) = v & (2^n - 1)`, the mask on naturals (R81); typed as `topBits` is. -/
def bottomBits (v : Hash) (n : Fin 33) : Nat := v.toNat &&& (2 ^ n.val - 1)

/-- `regcount(q)`: `2^q`, or none for the error `Overflow` (R82). -/
def regcount (q : Nat) : Option Nat := if q < Config.cntW then some (2 ^ q) else none

/-- `ctz_w(x)`: the least `k` with `x[k] = 1`, and `w` for `x = 0` (R84). -/
def ctz {w : Nat} (x : BitVec w) : Nat := ((List.range w).find? (fun k => x.getLsbD k)).getD w

/-- `clz_w(x)`: `w - 1 - k` for the greatest `k` with `x[k] = 1`, and `w` for `x = 0` (R85). No command uses
it: the rank counts trailing zeros. -/
def clz {w : Nat} (x : BitVec w) : Nat :=
  match (List.range w).reverse.find? (fun k => x.getLsbD k) with
  | some k => w - 1 - k
  | none => w

/-- `rev_w(x)`: `rev_w(x)[i] = x[w-1-i]` (R85). -/
def rev {w : Nat} (x : BitVec w) : BitVec w := x.reverse

/-- The stored precision as a bit count for `topBits`. -/
def indexWidth (p : Precision) : Fin 33 := ⟨p.toNat, by omega⟩

/-- `32 - p`, the width of the remainder. -/
def remainderWidth (p : Precision) : Fin 33 := ⟨32 - p.toNat, by omega⟩

/-- `index(h, p) = top_bits(h, p)` (R86). -/
def index (h : Hash) (p : Precision) : Nat := topBits h (indexWidth p)

/-- `remainder(h, p) = bottom_bits(h, 32 - p)`, a vector of exactly `32 - p` bits (R86). -/
def remainder (h : Hash) (p : Precision) : BitVec (32 - p.toNat) :=
  BitVec.ofNat (32 - p.toNat) (bottomBits h (remainderWidth p))

/-- `rank(h, p) = ctz_(32-p)(remainder(h, p)) + 1` (R87). -/
def rank (h : Hash) (p : Precision) : Nat := ctz (remainder h p) + 1

/-- `max(a, b)` on unsigned 8-bit values (R88). -/
def maxByte (a b : Byte) : Byte := if b ≤ a then a else b

end Sys2Proof.Machine
end

