-- ==== Sys2Proof/Machine/Construct.lean ====
section
/-! DEFINITION. The configuration command `INIT` (`41_init.md` R100 to R107). -/

namespace Sys2Proof.Machine

/-- The count check of `INIT` and, when it passes, the construction (R100): `Overflow` for a register count that
does not fit, which no precision in range has (R104, log entry 10). -/
def constructChecked (v : BitVec 32) (s : State) : State :=
  match regcount v.toNat with
  | none => s.raise .overflow
  | some _ => (s.construct (v.setWidth 5)).respond .ok 0

/-- `INIT v` (R100): the range check on the whole 32-bit operand (R105), then the count check (R104). -/
def execInit (v : BitVec 32) (s : State) : Host.Outcome State Fault Refusal :=
  if v.toNat < Config.pMin ∨ Config.pMax < v.toNat then .next (s.raise (.invalidPrecision v))
  else .next (constructChecked v s)

end Sys2Proof.Machine
end

