-- ==== Sys2Proof/Machine/Binary64.lean ====
section
/-! DEFINITION. The number format of the estimate (`43_estimate.md` R121 and R122): IEEE 754 binary64, rounded
to nearest, ties to even. Values are exact rationals and rounding happens only where `rn64` is written, as R121
says. The definitions are total; outside R121's range, which no step reaches (R132), they mean nothing about
the hardware (log entry 8). -/

namespace Sys2Proof.Machine

/-- The integer `e` with `2^e <= q < 2^(e+1)`, for positive `q` (R121). -/
def exponentOf (q : ℚ) : ℤ := Int.log 2 q

/-- `u = 2^(e-52)`, the unit in the last place of `q` (R121). -/
def unitOf (q : ℚ) : ℚ := (2 : ℚ) ^ (exponentOf q - 52)

/-- `RN64(q)` (R121): with `n = floor(q / u)` and `r = q / u - n`, the nearer of `n * u` and `(n + 1) * u`, and
for `r = 1/2` the one with the even factor. -/
def rn64 (q : ℚ) : ℚ :=
  let n : ℤ := ⌊q / unitOf q⌋
  let r : ℚ := q / unitOf q - n
  if r < 1 / 2 then n * unitOf q
  else if 1 / 2 < r then (n + 1) * unitOf q
  else if n % 2 = 0 then n * unitOf q
  else (n + 1) * unitOf q

/-- `bits64(x)` (R122), for `x = n * 2^(e-52)` with `2^52 <= n < 2^53`: sign 0, biased exponent `e + 1023` in
bits 62:52, fraction `n - 2^52` in bits 51:0. -/
def bits64 (x : ℚ) : Data :=
  (0 : BitVec 1) ++ BitVec.ofInt 11 (exponentOf x + 1023) ++ BitVec.ofInt 52 (⌊x / unitOf x⌋ - 2 ^ 52)

/-- A rational whose numerator and denominator are already evaluated. -/
inductive Evaluated where
  | mk (q : ℚ)

/-- `k n`, with `n` evaluated first: an aid to the kernel's evaluation, equal to `k n` (`strictNat_eq`). -/
def strictNat {α : Type} (n : Nat) (k : Nat → α) : α :=
  match n with
  | 0 => k 0
  | m + 1 => k (m + 1)

/-- `q` itself, evaluated: an aid to the kernel's evaluation of long sums, equal to `Evaluated.mk q`
(`evaluate_eq`). -/
def evaluate (q : ℚ) : Evaluated :=
  match q.num with
  | .ofNat a => strictNat a fun a => strictNat q.den fun b => .mk (mkRat a b)
  | .negSucc _ => .mk q

end Sys2Proof.Machine
end

