-- ==== Sys2Proof/Machine/Aggregator.lean ====
section
/-! DEFINITION. The harmonic-mean aggregator (`43_estimate.md` R123 to R131): alpha, the indicator and the
estimate, in binary64 with the roundings and the order the spec fixes, and beside them the exact rationals they
approximate. There is no range correction and no empty check (R130, R131). -/

namespace Sys2Proof.Machine

/-! ### Alpha -/

/-- `alphaQ(m)`, the exact alpha with the literals read as decimal fractions (R123); half-open boundaries. -/
def alphaQ (m : Nat) : ℚ :=
  if m < 32 then 673 / 1000
  else if m < 64 then 697 / 1000
  else if m < 128 then 709 / 1000
  else (7213 / 10000) / (1 + (1079 / 1000) / m)

/-- The formula branch of `alpha64`, one rounding per operation: `k / (1 + c / m)` (R124). -/
def alphaFormula64 (m : Nat) : ℚ :=
  let c := rn64 (1079 / 1000)
  let k := rn64 (7213 / 10000)
  let t := rn64 (c / m)
  let u := rn64 (1 + t)
  rn64 (k / u)

/-- `alpha64(m)`, the binary64 evaluation of `alphaQ` (R124). -/
def alpha64 (m : Nat) : ℚ :=
  if m < 32 then rn64 (673 / 1000)
  else if m < 64 then rn64 (697 / 1000)
  else if m < 128 then rn64 (709 / 1000)
  else alphaFormula64 m

/-! ### The indicator -/

/-- The term `2^(-r)` of a cell holding `r` (R125). -/
def cellTerm (r : Byte) : ℚ := (2 : ℚ) ^ (-(r.toNat : ℤ))

/-- Add the terms of the cells to `acc` in order, with one rounding after each addition (R125). -/
def addTerms (acc : ℚ) : List Byte → ℚ
  | [] => acc
  | r :: rest =>
    match evaluate (rn64 (acc + cellTerm r)) with
    | .mk acc' => addTerms acc' rest

/-- `sum64(regs)`: the terms in index order, starting from the first (R125, R128). -/
def sum64 : List Byte → ℚ
  | [] => 0
  | r :: rest => addTerms (cellTerm r) rest

/-- `S`, the exact sum of the terms (R125). -/
def sumExact (cells : List Byte) : ℚ := (cells.map cellTerm).sum

/-- The fixed-point accumulator R125 names: 17 integer bits and 29 fraction bits. An implementation's way to
the same sum; no command uses it. -/
def sumFixed (cells : List Byte) : BitVec 46 :=
  cells.foldl (fun acc r => acc + BitVec.ofNat 46 (2 ^ (29 - r.toNat))) 0

/-! ### The estimate -/

/-- The value `EST` returns, for precision `p` and the cells in order (R120, R124 to R127):
`RN64(RN64(alpha64(m) * 2^(2p)) * RN64(1 / s))`. -/
def estimate64 (p : Nat) (cells : List Byte) : ℚ :=
  let a := alpha64 (Config.regCount p)
  let s := sum64 cells
  let z := rn64 (1 / s)
  let am := rn64 (a * 2 ^ (2 * p))
  rn64 (am * z)

/-- `EQ = alphaQ(m) * m^2 / S`, the exact value of the source's formula (R129). -/
def estimateExact (p : Nat) (cells : List Byte) : ℚ :=
  alphaQ (Config.regCount p) * (Config.regCount p : ℚ) ^ 2 / sumExact cells

/-- The estimate of an estimator. -/
def Estimator.estimate (e : Estimator) : ℚ := estimate64 e.p.toNat e.cells

end Sys2Proof.Machine
end

