-- ==== Sys2Proof/Machine/Estimate.lean ====
section
/-! DEFINITION. The estimate command `EST` (`43_estimate.md` R120). -/

namespace Sys2Proof.Machine

/-- `EST` (R120): the bit pattern of the estimate; the block does not change. -/
def execEst (s : State) : Host.Outcome State Fault Refusal :=
  .next (s.withEstimator fun e => s.respond .ok (bits64 e.estimate))

end Sys2Proof.Machine
end

