-- ==== Sys2Proof/Machine/ReadBack.lean ====
section
/-! DEFINITION. The read-back commands `CNT` and `RDREG` (`44_readback.md` R140 to R142). -/

namespace Sys2Proof.Machine

/-- `CNT` (R140): the register count, zero-extended to 64 bits. -/
def execCnt (s : State) : Host.Outcome State Fault Refusal :=
  .next (s.withEstimator fun e => s.respond .ok (BitVec.ofNat 64 e.m))

/-- `RDREG i` (R141): the configuration check comes first, then the index check, then the read of one cell,
zero-extended to 64 bits (R46). -/
def execRdreg (idx : BitVec 16) (s : State) : Host.Outcome State Fault Refusal :=
  .next (s.withEstimator fun e =>
    if e.m ≤ idx.toNat then s.raise .badIndex
    else s.respond .ok ((RegFile.read e.regs idx.toNat).setWidth 64))

end Sys2Proof.Machine
end

