-- ==== Sys2Proof/Machine/Update.lean ====
section
/-! DEFINITION. The update command `ADD` (`42_add.md` R110 to R117). -/

namespace Sys2Proof.Machine

/-- The estimator after adding hash `h`: the cell of the hash's bucket raised to the hash's rank, if that is
greater (R110). -/
def Estimator.addHash (h : Hash) (e : Estimator) : Estimator :=
  e.writeCell (index h e.p) (maxByte (RegFile.read e.regs (index h e.p)) (BitVec.ofNat 8 (rank h e.p)))

/-- `ADD h` (R110). -/
def execAdd (h : Hash) (s : State) : Host.Outcome State Fault Refusal :=
  .next (s.withEstimator fun e => (s.setEstimator (e.addHash h)).respond .ok 0)

end Sys2Proof.Machine
end

