-- ==== Sys2Proof/Machine/Dispatch.lean ====
section
/-! DEFINITION. One arm per command (`30_encoding.md` R64), each a call of the command's meaning. -/

namespace Sys2Proof.Machine

def exec (i : Instr) (s : State) : Host.Outcome State Fault Refusal :=
  match i with
  | .init v => Sys2Proof.Machine.execInit v s
  | .add h => Sys2Proof.Machine.execAdd h s
  | .est => Sys2Proof.Machine.execEst s
  | .cnt => Sys2Proof.Machine.execCnt s
  | .rdreg idx => Sys2Proof.Machine.execRdreg idx s

end Sys2Proof.Machine
end

