-- ==== Sys2Proof/Machine/Port.lean ====
section
/-! DEFINITION. The command port and the reset input (`70_reset_and_hazards.md` R179): how the host's next
input is taken, how a command word is decoded and performed, and how the host issues more inputs. -/

namespace Sys2Proof.Machine

/-- Perform a command word: decode it first, and answer `ILLEGAL_CMD` when it is no command (R66, R153, R154). -/
def performWord (w : CmdWord) (s : State) : Host.Outcome State Fault Refusal :=
  match decode w with
  | .ok i => exec i s
  | .error _ => .next (s.raise .illegalCmd)

/-- Perform one host input (R179). -/
def performInput (input : HostInput) (s : State) : Host.Outcome State Fault Refusal :=
  match input with
  | .command w => performWord w s
  | .reset => .next s.applyReset

/-- Take the oldest host input and perform it; with none issued the block is quiescent and its state stays as
the last command left it (R11, R179, log entry 5). -/
def performNext (s : State) : Host.Outcome State Fault Refusal :=
  match s.inputs with
  | [] => .next s
  | input :: rest => performInput input { s with inputs := rest }

/-- The host issues inputs, to be performed after those already issued (R11, R51). -/
def State.issue (ins : List HostInput) (s : State) : State := { s with inputs := s.inputs ++ ins }

/-- The host issues a program: a finite list of command words, in index order (R27). -/
def State.issueProgram (words : List CmdWord) (s : State) : State := s.issue (words.map .command)

end Sys2Proof.Machine
end

