-- ==== Sys2Proof/Machine/Step.lean ====
section
/-! DEFINITION. One step of the machine: one host input, performed as one atomic step (`00_scope.md` R11). -/

namespace Sys2Proof.Machine

/-- One step (R11). -/
def step (s : State) : Host.Outcome State Fault Refusal := performNext s

/-- `s` with the command word the opcode table numbers as `w` at the front of what the host has issued, so
that the next step performs exactly it (log entry 3). -/
def State.withFetchWord (s : State) (nbits w : Nat) : State :=
  { s with inputs := .command (tableWord nbits w) :: s.inputs }

end Sys2Proof.Machine
end

