-- ==== Sys2Proof/Machine/Assembler.lean ====
section
/-! DEFINITION. The assembler of `30_encoding.md` R69 and the pseudo-instructions of R70. It belongs to the
host, not to the block; it is modelled so that the spec's assembly can be read. -/

namespace Sys2Proof

/-- The word a line assembles to; a line with an operand outside its range is refused, never truncated (R69). -/
def AsmLine.assemble (l : AsmLine) : Option CmdWord :=
  if l.wellFormed then
    match l with
    | .init v => some (makeWord 0x01 (BitVec.ofNat 32 v))
    | .add h => some (makeWord 0x02 (BitVec.ofNat 32 h))
    | .est => some 0x0300000000
    | .cnt => some 0x0400000000
    | .rdreg i => some (makeWord 0x05 (BitVec.ofNat 32 i))
    | .word w => some (BitVec.ofNat 40 w)
  else none

/-- The one command each pseudo-instruction expands to (R70). `hash32` is the open parameter `HASH32`: any
total function of the value alone (R83, log entry 12). -/
def Pseudo.expand {α : Type} (hash32 : α → Hash) : Pseudo α → AsmLine
  | .addv value => .add (hash32 value).toNat
  | .new v => .init v
  | .estimate => .est
  | .registerCount => .cnt

/-! ### Reading a line of text (R69) -/

/-- A line up to its comment, which `;` starts. -/
def asmCode (line : List Char) : List Char := line.takeWhile (fun c => decide (c ≠ ';'))

/-- The words of a line: its runs of characters other than space and tab (log entry 19). -/
def asmWords : List Char → List (List Char)
  | [] => []
  | c :: rest =>
    if c = ' ' ∨ c = '\t' then [] :: asmWords rest
    else
      match asmWords rest with
      | [] => [[c]]
      | w :: ws => (c :: w) :: ws

/-- The sixteen digits as the spec prints them, each at the place of its value. -/
def asmDigitsUpper : List Char := "0123456789ABCDEF".toList

/-- The same digits with small letters, which R69 does not rule out (log entry 19). -/
def asmDigitsLower : List Char := "0123456789abcdef".toList

/-- The value of a digit: its place in either list. -/
def asmDigit (c : Char) : Option Nat := (asmDigitsUpper.idxOf? c).or (asmDigitsLower.idxOf? c)

/-- The number written by `digits` in base `base`, after a prefix worth `acc`. -/
def asmDigits (base acc : Nat) : List Char → Option Nat
  | [] => some acc
  | c :: rest =>
    match asmDigit c with
    | some d => if d < base then asmDigits base (acc * base + d) rest else none
    | none => none

/-- A number in decimal, or in hexadecimal with the prefix `0x`; at least one digit. -/
def asmNumber : List Char → Option Nat
  | [] => none
  | ['0', 'x'] => none
  | '0' :: 'x' :: digits => asmDigits 16 0 digits
  | digits => asmDigits 10 0 digits

/-- The number of a `.word` line: `0x` and exactly ten hexadecimal digits. That the word may be a legal one is
DESIGN CHOICE (log entry 19). -/
def asmTenDigits : List Char → Option Nat
  | '0' :: 'x' :: digits => if digits.length = 10 then asmDigits 16 0 digits else none
  | _ => none

/-- The line a mnemonic (or a pseudo-instruction's name, R70) and its operand make. `ADDV` takes a value of the
host's own type, not a number, and so has no textual form here (log entry 19). -/
def asmStatement : List (List Char) → Option AsmLine
  | [mnemonic] =>
    if mnemonic = "EST".toList ∨ mnemonic = "ESTIMATE".toList then some .est
    else if mnemonic = "CNT".toList ∨ mnemonic = "REGISTER_COUNT".toList then some .cnt
    else none
  | [mnemonic, operand] =>
    if mnemonic = "INIT".toList ∨ mnemonic = "NEW".toList then (asmNumber operand).map .init
    else if mnemonic = "ADD".toList then (asmNumber operand).map .add
    else if mnemonic = "RDREG".toList then (asmNumber operand).map .rdreg
    else if mnemonic = ".word".toList then (asmTenDigits operand).map .word
    else none
  | _ => none

/-- Read one line of assembly; none for a line that is no command, an empty or comment line among them. -/
def readAsmLine (line : String) : Option AsmLine :=
  asmStatement ((asmWords (asmCode line.toList)).filter (fun w => !w.isEmpty))

/-- A line of text to its word: read, checked and assembled. -/
def assembleText (line : String) : Option CmdWord := (readAsmLine line).bind AsmLine.assemble

end Sys2Proof
end

