-- ==== Sys2Proof/Machine/Flags.lean ====
section
/-! DEFINITION. The flags. `cfg` is the only one: there are no carry, zero, sign or overflow condition codes,
no floating-point exception flags, and no command sets a flag as a side effect (`10_state.md` R25,
`43_estimate.md` R132). -/

namespace Sys2Proof.Machine

/-- `cfg`, 1 bit: 1 when an estimator has been constructed since reset (R25). -/
def Block.cfg : Block → BitVec 1
  | .unconfigured => 0
  | .configured _ => 1

/-- `cfg` of the machine. -/
def State.cfg (s : State) : BitVec 1 := s.block.cfg

end Sys2Proof.Machine
end

