-- ==== Sys2Proof/Safety.lean ====
section
/-! DEFINITION. What counts as a good state and a run, in the terms the claims use: the invariants of
`10_state.md` R30 and R32, reachability (`00_scope.md` R12), and runs of commands. -/

namespace Sys2Proof.Machine

/-- The invariant of a constructed estimator: `4 <= p <= 16` and cells only at `0 .. 2^p - 1` (R30), every cell
at most `33 - p` (R32), and the register file in canonical form. -/
abbrev Estimator.Inv (e : Estimator) : Prop :=
  Config.pMin ≤ e.p.toNat ∧ e.p.toNat ≤ Config.pMax ∧ RegFile.wf e.regs ∧
    ∀ c ∈ e.regs, c.1 < e.m ∧ c.2.toNat ≤ Config.rankMax e.p.toNat

/-- The block is unconfigured, or holds an estimator that meets its invariant. -/
def Block.Inv : Block → Prop
  | .unconfigured => True
  | .configured e => e.Inv

/-- The invariant of the machine. -/
def State.Inv (s : State) : Prop := s.block.Inv

/-- A reachable state (R12): from reset, by steps and by the host issuing inputs at any time. -/
inductive Reachable : State → Prop where
  | reset : Reachable State.reset
  | issue (s : State) (ins : List HostInput) : Reachable s → Reachable (s.issue ins)
  | step (s t : State) : Reachable s → step s = .next t → Reachable t

/-- Execute commands one after another, stopping at the first that gives no next state. -/
def execAll : List Instr → State → Host.Outcome State Fault Refusal
  | [], s => .next s
  | i :: rest, s =>
    match exec i s with
    | .next t => execAll rest t
    | .fault r => .fault r
    | .refused r => .refused r

/-- Perform command words one after another, legal or not, stopping at the first that gives no next state. -/
def performAll : List CmdWord → State → Host.Outcome State Fault Refusal
  | [], s => .next s
  | w :: rest, s =>
    match performWord w s with
    | .next t => performAll rest t
    | .fault r => .fault r
    | .refused r => .refused r

/-- `x` is a positive normal binary64 number, in the form `n * 2^(e-52)` of R122. -/
def IsPositiveNormal (x : ℚ) : Prop :=
  ∃ n e : ℤ, 2 ^ 52 ≤ n ∧ n < 2 ^ 53 ∧ -1022 ≤ e ∧ e ≤ 1023 ∧ x = (n : ℚ) * (2 : ℚ) ^ (e - 52)

/-- The register list of a configured block is in canonical form (log entry 7). -/
def Block.Canonical (b : Block) : Prop := ∀ e, b = .configured e → RegFile.wf e.regs

/-- The greatest rank among the hashes of bucket `i`, and 0 where there is none (R114). -/
def bucketMax (p : Precision) (i : Nat) (hs : List Hash) : Nat :=
  ((hs.filter (fun h => index h p = i)).map (fun h => rank h p)).foldr max 0

end Sys2Proof.Machine
end

