-- ==== Sys2Proof/Certificates/Slice0/Obligations.lean ====
section
/-! DEFINITION. The statements for the provers. Each docstring names the rules of spec/ it formalises. -/

open Sys2Proof Sys2Proof.Machine

/-! ### Encoding -/

/-- The worked encodings of R71, which the spec marks as derived from R60 to R66, in both directions; `INIT 20`
decodes and is refused at execution; the four illegal words have no command. -/
def Obligations.WorkedEncodings : Prop :=
  (encode (.init 4) = 0x0100000004 ∧ decode 0x0100000004 = .ok (.init 4)) ∧
  (encode (.init 20) = 0x0100000014 ∧ decode 0x0100000014 = .ok (.init 20)) ∧
  (∀ s : State, exec (.init 20) s =
    .next { s with responses := s.responses ++ [⟨.invalidPrecision, 20⟩] }) ∧
  (encode (.add 2766284370) = 0x02A4E22652 ∧ decode 0x02A4E22652 = .ok (.add 2766284370)) ∧
  (encode .est = 0x0300000000 ∧ decode 0x0300000000 = .ok .est) ∧
  (encode .cnt = 0x0400000000 ∧ decode 0x0400000000 = .ok .cnt) ∧
  (encode (.rdreg 10) = 0x050000000A ∧ decode 0x050000000A = .ok (.rdreg 10)) ∧
  (∀ w ∈ [0x0300000001, 0x0500010000, 0x0000000000, 0x0600000000], ∀ i, decode w ≠ .ok i)

/-- From R60, R63 and R65: no operand bit is dropped: the encoded word of every command decodes to it. -/
def Obligations.DecodeOfEncode : Prop := ∀ i : Instr, decode (encode i) = .ok i

/-- From R64 and R65: each legal word is the encoding of the command it decodes to, so a command has one word. -/
def Obligations.EncodeOfDecode : Prop := ∀ (w : CmdWord) (i : Instr), decode w = .ok i → encode i = w

/-- R64: a word selects a row when `w & mask = match`; the row it selects is the command it decodes to, with the
operand bits the row's pattern names; at most one row matches. -/
def Obligations.DecodeFollowsOpcodeTable : Prop :=
  ∀ w : CmdWord,
    (w &&& 0xFF00000000 = 0x0100000000 ↔ decode w = .ok (.init (w.extractLsb' 0 32))) ∧
    (w &&& 0xFF00000000 = 0x0200000000 ↔ decode w = .ok (.add (w.extractLsb' 0 32))) ∧
    (w &&& 0xFFFFFFFFFF = 0x0300000000 ↔ decode w = .ok .est) ∧
    (w &&& 0xFFFFFFFFFF = 0x0400000000 ↔ decode w = .ok .cnt) ∧
    (w &&& 0xFFFFFF0000 = 0x0500000000 ↔ decode w = .ok (.rdreg (w.extractLsb' 0 16))) ∧
    (opcodeTable.filter (fun r => r.selects w)).length ≤ 1

/-- R66, R154: the words R66 lists are exactly those that match no row and that decode to no command; such a word
changes no state and is answered `ILLEGAL_CMD` with data 0, configured or not. -/
def Obligations.IllegalWordsAnswered : Prop :=
  ∀ w : CmdWord,
    (((w.extractLsb' 32 8).toNat = 0x00 ∨ 0x06 ≤ (w.extractLsb' 32 8).toNat ∨
      ((w.extractLsb' 32 8).toNat = 0x03 ∨ (w.extractLsb' 32 8).toNat = 0x04) ∧ w.extractLsb' 0 32 ≠ 0 ∨
      (w.extractLsb' 32 8).toNat = 0x05 ∧ w.extractLsb' 16 16 ≠ 0) ↔
        ∀ r ∈ opcodeTable, r.selects w = false) ∧
    ((∀ r ∈ opcodeTable, r.selects w = false) ↔ ∀ i, decode w ≠ .ok i) ∧
    (∀ (s : State) (rest : List HostInput), s.inputs = .command w :: rest →
      (∀ r ∈ opcodeTable, r.selects w = false) →
      step s = .next { block := s.block, inputs := rest, responses := s.responses ++ [⟨.illegalCmd, 0⟩] })

/-- The layout of R62 and the codes of R151: the response word is the status code in bits 67:64 and the data in
bits 63:0; the codes are those of R151, so 6 to 15 never appear. -/
def Obligations.ResponseWordLayout : Prop :=
  (∀ r : Response, r.word.extractLsb' 64 4 = r.status.code ∧ r.word.extractLsb' 0 64 = r.data) ∧
  (∀ st : Status, st.code.toNat ≤ 5 ∧ (st.code = 0 ↔ st = .ok)) ∧
  Status.code .invalidPrecision = 1 ∧ Status.code .overflow = 2 ∧ Status.code .illegalCmd = 3 ∧
  Status.code .notConfigured = 4 ∧ Status.code .badIndex = 5

/-- From R69: the assembler refuses an operand outside its range and never truncates; a command line it accepts
decodes to the command with that very operand, and a `.word` line gives that very word. That `.word` takes a
legal word too is the model's choice, log entry 19. -/
def Obligations.AssemblerNeverTruncates : Prop :=
  (∀ v w, AsmLine.assemble (.init v) = some w →
    v < 2 ^ 32 ∧ ∃ x : BitVec 32, decode w = .ok (.init x) ∧ x.toNat = v) ∧
  (∀ h w, AsmLine.assemble (.add h) = some w →
    h < 2 ^ 32 ∧ ∃ x : Hash, decode w = .ok (.add x) ∧ x.toNat = h) ∧
  (∀ i w, AsmLine.assemble (.rdreg i) = some w →
    i < 2 ^ 16 ∧ ∃ x : BitVec 16, decode w = .ok (.rdreg x) ∧ x.toNat = i) ∧
  (∀ v, v < 2 ^ 32 → AsmLine.assemble (.init v) = some (encode (.init (BitVec.ofNat 32 v)))) ∧
  (∀ h, h < 2 ^ 32 → AsmLine.assemble (.add h) = some (encode (.add (BitVec.ofNat 32 h)))) ∧
  (∀ i, i < 2 ^ 16 → AsmLine.assemble (.rdreg i) = some (encode (.rdreg (BitVec.ofNat 16 i)))) ∧
  AsmLine.assemble .est = some (encode .est) ∧ AsmLine.assemble .cnt = some (encode .cnt) ∧
  (∀ n w, AsmLine.assemble (.word n) = some w → n < 2 ^ 40 ∧ w.toNat = n) ∧
  (∀ n, n < 2 ^ 40 → AsmLine.assemble (.word n) = some (BitVec.ofNat 40 n))

/-- R70: every pseudo-instruction expands to exactly one command, `ADDV` through whatever function `HASH32` is;
with the fixture hash, `ADDV "moros"` is the word `0x02A4E22652`. -/
def Obligations.PseudoInstructionsExpand : Prop :=
  (∀ (α : Type) (hash32 : α → Hash) (value : α),
    (Pseudo.expand hash32 (.addv value)).assemble = some (encode (.add (hash32 value)))) ∧
  (∀ (hash32 : String → Hash), hash32 "moros" = 2766284370 →
    (Pseudo.expand hash32 (.addv "moros")).assemble = some 0x02A4E22652) ∧
  (∀ (α : Type) (hash32 : α → Hash) (v : Nat), v < 2 ^ 32 →
    (Pseudo.expand hash32 (.new v)).assemble = some (encode (.init (BitVec.ofNat 32 v)))) ∧
  (∀ (α : Type) (hash32 : α → Hash), (Pseudo.expand hash32 .estimate).assemble = some (encode .est)) ∧
  (∀ (α : Type) (hash32 : α → Hash), (Pseudo.expand hash32 .registerCount).assemble = some (encode .cnt))

/-! ### The step and the host's inputs -/

/-- From R11: when the oldest input is a word that decodes to `i`, the step is the execution of `i` on the state
with that input taken. -/
def Obligations.StepRunsDecodedCommand : Prop :=
  ∀ (s : State) (w : CmdWord) (rest : List HostInput) (i : Instr),
    s.inputs = .command w :: rest → decode w = .ok i → step s = exec i { s with inputs := rest }

/-- R177: every command completes with a next state and exactly one response, whether its word is legal or not;
the reset input completes too. -/
def Obligations.EveryCommandCompletes : Prop :=
  (∀ (s : State) (w : CmdWord) (rest : List HostInput), s.inputs = .command w :: rest →
    ∃ t r, step s = .next t ∧ t.inputs = rest ∧ t.responses = s.responses ++ [r]) ∧
  (∀ (s : State) (rest : List HostInput), s.inputs = .reset :: rest →
    ∃ t, step s = .next t ∧ t.inputs = rest ∧ t.responses = s.responses)

/-- R179 (end of a run): with nothing issued the state stays. The form of the idle step is the model's choice,
log entry 5. -/
def Obligations.IdleStepKeepsState : Prop := ∀ s : State, s.inputs = [] → step s = .next s

/-- R170: the reset input makes `cfg` 0 and leaves `p` and `regs` without a value, from any state and without a
response; power-up is such a state; nothing else returns `cfg` to 0. -/
def Obligations.ResetUnconfigures : Prop :=
  (∀ (s : State) (rest : List HostInput), s.inputs = .reset :: rest →
    step s = .next { block := .unconfigured, inputs := rest, responses := s.responses }) ∧
  (∀ s t : State, step s = .next t → s.cfg = 1 → t.cfg = 0 → ∃ rest, s.inputs = .reset :: rest) ∧
  State.reset.block = .unconfigured

/-- R35: after reset, whether the reset input or power-up, `cfg = 0` and `p` and `regs` hold no value; the first
successful `INIT` from there gives them values, `p` from its operand and every cell 0. -/
def Obligations.ResetValues : Prop :=
  (State.reset.cfg = 0 ∧ ∀ e, State.reset.block ≠ .configured e) ∧
  (∀ (s t : State) (rest : List HostInput), s.inputs = .reset :: rest → step s = .next t →
    t.cfg = 0 ∧ ∀ e, t.block ≠ .configured e) ∧
  (∀ (v : BitVec 32) (s : State), s.block = .unconfigured → 4 ≤ v.toNat → v.toNat ≤ 16 →
    ∃ t e, exec (.init v) s = .next t ∧ t.block = .configured e ∧ e.p.toNat = v.toNat ∧
      e.cells = List.replicate (2 ^ v.toNat) 0)

/-- From R27, R51 and R66: a program the host issues, any finite list of command words, legal or not, is performed
in index order, each word on the state the ones before it left, with one response for each, and then nothing is
pending. The words that encode commands are performed as those commands. -/
def Obligations.IssuedProgramRunsInOrder : Prop :=
  (∀ (s : State) (words : List CmdWord), s.inputs = [] →
    ∃ t, performAll words s = .next t ∧ t.inputs = [] ∧
      t.responses.length = s.responses.length + words.length ∧
      Sys2Proof.core.run words.length (s.issueProgram words) = .next t) ∧
  (∀ (s : State) (is : List Instr), performAll (is.map encode) s = execAll is s)

/-- R25: reset clears `cfg`, a successful `INIT` sets it, and nothing else writes it; every other command reads
it and answers `NOT_CONFIGURED` when it is 0. -/
def Obligations.CfgWrittenOnlyByInitAndReset : Prop :=
  (∀ (i : Instr) (s : State), (∀ v, i ≠ .init v) → s.cfg = 0 →
    exec i s = .next { s with responses := s.responses ++ [⟨.notConfigured, 0⟩] }) ∧
  ∀ s t : State, step s = .next t →
    (∀ rest, s.inputs = .reset :: rest → t.cfg = 0) ∧
    (∀ w rest v, s.inputs = .command w :: rest → decode w = .ok (.init v) → 4 ≤ v.toNat → v.toNat ≤ 16 →
      t.cfg = 1) ∧
    ((∀ rest, s.inputs ≠ .reset :: rest) →
      (∀ w rest v, s.inputs = .command w :: rest → decode w = .ok (.init v) →
        v.toNat < 4 ∨ 16 < v.toNat) →
      t.cfg = s.cfg)

/-! ### INIT -/

/-- R100, R102, R103, R156: in any state, `INIT v` with `v` in 4..16 leaves `cfg = 1`, `p = v` and `2^v` cells,
all 0, and answers `OK` with data 0; with any other `v` it changes nothing and answers `INVALID_PRECISION` with
the whole `v`. -/
def Obligations.InitConstructsOrRefuses : Prop :=
  (∀ (v : BitVec 32) (s : State), 4 ≤ v.toNat → v.toNat ≤ 16 →
    ∃ e t, exec (.init v) s = .next t ∧
      t = { block := .configured e, inputs := s.inputs, responses := s.responses ++ [⟨.ok, 0⟩] } ∧
      t.cfg = 1 ∧ e.p = v.extractLsb' 0 5 ∧ e.p.toNat = v.toNat ∧ e.cells.length = 2 ^ v.toNat ∧
      ∀ i, RegFile.read e.regs i = 0) ∧
  (∀ (v : BitVec 32) (s : State), v.toNat < 4 ∨ 16 < v.toNat →
    exec (.init v) s =
      .next { s with responses := s.responses ++ [⟨.invalidPrecision, v.setWidth 64⟩] }) ∧
  (∀ s : State, ∃ e, exec (.init 4) s =
      .next { block := .configured e, inputs := s.inputs, responses := s.responses ++ [⟨.ok, 0⟩] } ∧
      e.p = 4 ∧ e.cells = [0, 0, 0, 0, 0, 0, 0, 0, 0, 0, 0, 0, 0, 0, 0, 0])

/-- R106, which the spec marks as derived: after a successful `INIT v` and before any `ADD`, `CNT` answers `2^v`,
every `RDREG` within the vector answers 0, and `EST` answers the bit pattern of `alpha64(m) * m`, which is not 0.
-/
def Obligations.FreshEstimatorReads : Prop :=
  ∀ (v : BitVec 32) (s : State), 4 ≤ v.toNat → v.toNat ≤ 16 →
    ∃ t d, exec (.init v) s = .next t ∧
      exec .cnt t = .next { t with responses := t.responses ++ [⟨.ok, BitVec.ofNat 64 (2 ^ v.toNat)⟩] } ∧
      (∀ idx : BitVec 16, idx.toNat < 2 ^ v.toNat →
        exec (.rdreg idx) t = .next { t with responses := t.responses ++ [⟨.ok, 0⟩] }) ∧
      exec .est t = .next { t with responses := t.responses ++ [⟨.ok, d⟩] } ∧
      d = bits64 (alpha64 (2 ^ v.toNat) * 2 ^ v.toNat) ∧ d ≠ 0

/-- The boundary values of R105, which the spec marks as derived from R100; no value is clamped, wrapped or
reduced before the check. -/
def Obligations.InitBoundaryValues : Prop :=
  (∀ v ∈ [3, 17, 0, 20, 4294967295, 36], ∀ s : State,
    exec (.init (BitVec.ofNat 32 v)) s =
      .next { s with responses := s.responses ++ [⟨.invalidPrecision, BitVec.ofNat 64 v⟩] }) ∧
  (∀ s : State, ∃ e t, exec (.init 4) s = .next t ∧ t.block = .configured e ∧ e.m = 16) ∧
  (∀ s : State, ∃ e t, exec (.init 16) s = .next t ∧ t.block = .configured e ∧ e.m = 65536)

/-- R82, and R157, which the spec marks as derived: `regcount` is `2^q` below `CNT_W = 32` and `Overflow` from
there, so it never fails for a precision in range and no step ever answers `OVERFLOW`; were it raised it would
change nothing. -/
def Obligations.OverflowNeverProduced : Prop :=
  (∀ q : Nat, (q < 32 → regcount q = some (2 ^ q)) ∧ (32 ≤ q → regcount q = none)) ∧
  (∀ v : BitVec 32, 4 ≤ v.toNat → v.toNat ≤ 16 → regcount v.toNat = some (2 ^ v.toNat)) ∧
  (∀ (s t : State) (new : List Response), step s = .next t → t.responses = s.responses ++ new →
    ∀ r ∈ new, r.status ≠ .overflow) ∧
  (∀ s : State, s.raise .overflow = { s with responses := s.responses ++ [⟨.overflow, 0⟩] })

/-! ### ADD -/

/-- R110: on a configured block `ADD h` raises the cell of the hash's index to the hash's rank if that is
greater, answers `OK` with data 0, and leaves `p`, `cfg` and every other cell as they were; unconfigured, it
answers `NOT_CONFIGURED` and changes nothing. -/
def Obligations.AddRaisesItsCell : Prop :=
  (∀ (h : Hash) (s : State), s.block = .unconfigured →
    exec (.add h) s = .next { s with responses := s.responses ++ [⟨.notConfigured, 0⟩] }) ∧
  (∀ (h : Hash) (s : State) (e : Estimator), s.block = .configured e → RegFile.wf e.regs →
    ∃ e', exec (.add h) s =
        .next { s with block := .configured e', responses := s.responses ++ [⟨.ok, 0⟩] } ∧
      e'.p = e.p ∧
      (RegFile.read e'.regs (index h e.p)).toNat =
        max (RegFile.read e.regs (index h e.p)).toNat (rank h e.p) ∧
      ∀ j, j ≠ index h e.p → RegFile.read e'.regs j = RegFile.read e.regs j) ∧
  (∀ s : State, s.block = .configured ⟨4, []⟩ →
    ∃ e', exec (.add 0xA4E22652) s =
        .next { s with block := .configured e', responses := s.responses ++ [⟨.ok, 0⟩] } ∧
      e'.cells = [0, 0, 0, 0, 0, 0, 0, 0, 0, 0, 2, 0, 0, 0, 0, 0])

/-- R113, and R111, which the spec marks as derived from R110: at most one cell changes and only upward; it
changes exactly when the rank is greater than what the cell holds, and a tie changes no state. -/
def Obligations.AddChangesCellExactlyWhenGreater : Prop :=
  ∀ (h : Hash) (s t : State) (e : Estimator), s.block = .configured e → RegFile.wf e.regs →
    exec (.add h) s = .next t →
    ∃ e', t.block = .configured e' ∧
      RegFile.read e.regs (index h e.p) ≤ RegFile.read e'.regs (index h e.p) ∧
      (∀ j, j ≠ index h e.p → RegFile.read e'.regs j = RegFile.read e.regs j) ∧
      (RegFile.read e'.regs (index h e.p) ≠ RegFile.read e.regs (index h e.p) ↔
        (RegFile.read e.regs (index h e.p)).toNat < rank h e.p) ∧
      (rank h e.p ≤ (RegFile.read e.regs (index h e.p)).toNat → e' = e)

/-- R112, which the spec marks as derived from R110 and R88: once `ADD h` has been issued, a later `ADD h` with
any commands between but no successful `INIT` changes nothing, and `EST` before and after it answers the same. -/
def Obligations.AddIsIdempotent : Prop :=
  ∀ (h : Hash) (between : List Instr) (s t u : State) (e : Estimator),
    s.block = .configured e → RegFile.wf e.regs →
    (∀ v, .init v ∈ between → v.toNat < 4 ∨ 16 < v.toNat) →
    execAll (.add h :: between) s = .next t → exec (.add h) t = .next u →
    u.block = t.block ∧
    ∃ d, exec .est t = .next { t with responses := t.responses ++ [⟨.ok, d⟩] } ∧
      exec .est u = .next { u with responses := u.responses ++ [⟨.ok, d⟩] }

/-- R114, which the spec marks as derived from R110 and R88: two `ADD`s commute; and after a successful `INIT`
and any sequence of `ADD`s, in any order and with any repetitions, cell `i` holds the greatest rank of the hashes
with index `i`, or 0 where there is none. -/
def Obligations.AddsGiveBucketMaximum : Prop :=
  (∀ (h₁ h₂ : Hash) (s t u : State) (e : Estimator), s.block = .configured e → RegFile.wf e.regs →
    execAll [.add h₁, .add h₂] s = .next t → execAll [.add h₂, .add h₁] s = .next u → t = u) ∧
  (∀ (v : BitVec 32) (hs : List Hash) (s : State), 4 ≤ v.toNat → v.toNat ≤ 16 →
    ∃ t e, execAll (.init v :: hs.map .add) s = .next t ∧ t.block = .configured e ∧
      e.p.toNat = v.toNat ∧
      ∀ i, i < 2 ^ v.toNat → (RegFile.read e.regs i).toNat = bucketMax e.p i hs)

/-- R116 (a) to (d) and (g), which the spec marks as derived from R110: the all-zero hash has index 0 and the
greatest rank, the all-ones hash the last index and rank 1; the zero count stops at the remainder's width; the
rank never exceeds 29. -/
def Obligations.HashCornerCases : Prop :=
  (∀ p : Precision, 4 ≤ p.toNat → p.toNat ≤ 16 →
    (index 0 p = 0 ∧ rank 0 p = 33 - p.toNat) ∧
    (index 0xFFFFFFFF p = 2 ^ p.toNat - 1 ∧ rank 0xFFFFFFFF p = 1) ∧
    (∀ h : Hash, rank h p ≤ 29)) ∧
  (index 0x80000000 4 = 8 ∧ rank 0x80000000 4 = 29) ∧
  (index 0x08000000 4 = 0 ∧ rank 0x08000000 4 = 28)

/-! ### The datapath functions -/

/-- R80, R81: `top_bits` is the `n` most significant bits and `bottom_bits` the `n` least significant, at every
`n` from 0 to 32, both ends among them. That `bottom_bits(v, 32) = v` the spec marks as derived, since the source
prints no result there. -/
def Obligations.BitExtractionMeaning : Prop :=
  (∀ (v : Hash) (n : Fin 33),
    topBits v n = v.toNat / 2 ^ (32 - n.val) ∧ topBits v n < 2 ^ n.val ∧
    topBits v n = (v.extractLsb' (32 - n.val) n.val).toNat ∧
    bottomBits v n = v.toNat % 2 ^ n.val ∧
    bottomBits v n = (v.extractLsb' 0 n.val).toNat) ∧
  (∀ v : Hash, topBits v 0 = 0 ∧ topBits v 32 = v.toNat ∧ bottomBits v 0 = 0 ∧ bottomBits v 32 = v.toNat) ∧
  topBits 0xA4000000 6 = 41 ∧ bottomBits 0x000000A4 3 = 4

/-- R86: index and remainder partition the hash (the spec marks the partition as derived from R80 and R81): no
bit is used twice and none is dropped. -/
def Obligations.IndexAndRemainderPartitionHash : Prop :=
  (∀ (h : Hash) (p : Precision), 4 ≤ p.toNat → p.toNat ≤ 16 →
    index h p = h.toNat / 2 ^ (32 - p.toNat) ∧ index h p < 2 ^ p.toNat ∧
    (remainder h p).toNat = h.toNat % 2 ^ (32 - p.toNat) ∧
    h.toNat = index h p * 2 ^ (32 - p.toNat) + (remainder h p).toNat) ∧
  index 0xA4E22652 4 = 10 ∧ (remainder 0xA4E22652 4).toNat = 0x4E22652

/-- R84: the count of trailing zeros is the width for 0, and else the least set bit, which is the greatest
exponent of a power of two that divides the vector as a number. -/
def Obligations.CtzIsLeastSetBit : Prop :=
  (∀ (w : Nat) (x : BitVec w), 1 ≤ w →
    ctz x ≤ w ∧ (x = 0 → ctz x = w) ∧
    (x ≠ 0 → x.getLsbD (ctz x) = true ∧ (∀ k, k < ctz x → x.getLsbD k = false) ∧
      2 ^ ctz x ∣ x.toNat ∧ ∀ k, k ≤ w → 2 ^ k ∣ x.toNat → k ≤ ctz x)) ∧
  ctz (0x4E22652 : BitVec 28) = 1

/-- R85: `clz` and `rev` as defined there, and, marked there as derived, `ctz_w(x) = clz_w(rev_w(x))` for every
width and vector; a leading-zero count of the remainder itself is another function. -/
def Obligations.CtzIsClzOfReversed : Prop :=
  (∀ (w : Nat) (x : BitVec w), 1 ≤ w → ctz x = clz (rev x)) ∧
  (∀ (w : Nat) (x : BitVec w) (i : Nat), i < w → (rev x).getLsbD i = x.getLsbD (w - 1 - i)) ∧
  (∀ (w : Nat) (x : BitVec w), 1 ≤ w → (x = 0 → clz x = w) ∧
    ∀ k, k < w → x.getLsbD k = true → (∀ j, k < j → x.getLsbD j = false) → clz x = w - 1 - k) ∧
  ctz (remainder 0x08000000 4) = 27 ∧ clz (remainder 0x08000000 4) = 0

/-- R87: the rank lies in `1 .. 33 - p`; and, as the characterisation the spec marks as derived says, it is `k`
exactly when bit `k - 1` of the hash is the lowest set one, and `33 - p` exactly when the whole remainder is 0.
-/
def Obligations.RankCharacterisation : Prop :=
  (∀ (h : Hash) (p : Precision), 4 ≤ p.toNat → p.toNat ≤ 16 →
    1 ≤ rank h p ∧ rank h p ≤ 33 - p.toNat ∧
    rank h p = ctz (remainder h p) + 1 ∧
    (∀ k, 1 ≤ k → k ≤ 32 - p.toNat →
      (rank h p = k ↔ h.getLsbD (k - 1) = true ∧ ∀ j, j < k - 1 → h.getLsbD j = false)) ∧
    (rank h p = 33 - p.toNat ↔ ∀ j, j < 32 - p.toNat → h.getLsbD j = false)) ∧
  rank 0xA4E22652 4 = 2

/-- R88: the maximum of two unsigned bytes; idempotent, commutative, associative, and not below its operands. -/
def Obligations.MaxByteLaws : Prop :=
  ∀ a b c : Byte,
    (maxByte a b).toNat = max a.toNat b.toNat ∧ maxByte a a = a ∧ maxByte a b = maxByte b a ∧
    maxByte (maxByte a b) c = maxByte a (maxByte b c) ∧ a ≤ maxByte a b

/-! ### EST -/

/-- R120: on a configured block `EST` answers `OK` with the bit pattern of
`RN64(RN64(alpha64(m) * 2^(2p)) * RN64(1 / sum64(regs)))` and changes nothing; unconfigured, it answers
`NOT_CONFIGURED`; the example of the rule with its intermediate values. -/
def Obligations.EstAnswersEstimate : Prop :=
  (∀ s : State, s.block = .unconfigured →
    exec .est s = .next { s with responses := s.responses ++ [⟨.notConfigured, 0⟩] }) ∧
  (∀ (s : State) (e : Estimator), s.block = .configured e →
    exec .est s = .next { s with responses := s.responses ++
      [⟨.ok, bits64 (rn64 (rn64 (alpha64 (2 ^ e.p.toNat) * 2 ^ (2 * e.p.toNat)) *
        rn64 (1 / sum64 e.cells)))⟩] }) ∧
  (∀ s : State, s.block = .configured ⟨4, [(10, 2)]⟩ →
    exec .est s = .next { s with responses := s.responses ++ [⟨.ok, 0x4026985B96D8D1C6⟩] }) ∧
  sum64 (Estimator.cells ⟨4, [(10, 2)]⟩) = 61 / 4 ∧ bits64 (rn64 (1 / (61 / 4))) = 0x3FB0C9714FBCDA3B ∧
  bits64 (rn64 (alpha64 16 * 2 ^ 8)) = 0x406589374BC6A7F0 ∧
  estimateExact 4 (Estimator.cells ⟨4, [(10, 2)]⟩) = 86144 / 7625

/-- R121: for every `q` in binary64's normal range, with `e`, `u`, `n` and `r` as the rule names them, `RN64(q)`
is `n * u`, `(n + 1) * u`, or for a tie the one with the even factor. -/
def Obligations.RoundingIsToNearestEven : Prop :=
  ∀ (q : ℚ) (e : ℤ), (2 : ℚ) ^ (-1022 : ℤ) ≤ q → q < (2 : ℚ) ^ (1024 : ℤ) →
    (2 : ℚ) ^ e ≤ q → q < (2 : ℚ) ^ (e + 1) →
    ∃ (n : ℤ) (r : ℚ), q / (2 : ℚ) ^ (e - 52) = n + r ∧ 2 ^ 52 ≤ n ∧ n < 2 ^ 53 ∧ 0 ≤ r ∧ r < 1 ∧
      (r < 1 / 2 → rn64 q = n * (2 : ℚ) ^ (e - 52)) ∧
      (1 / 2 < r → rn64 q = (n + 1) * (2 : ℚ) ^ (e - 52)) ∧
      (r = 1 / 2 → n % 2 = 0 → rn64 q = n * (2 : ℚ) ^ (e - 52)) ∧
      (r = 1 / 2 → n % 2 = 1 → rn64 q = (n + 1) * (2 : ℚ) ^ (e - 52))

/-- From R121, whose rounding is to the nearest value: no value with a 53-bit significand is nearer to `q` than
`RN64(q)`. For `q` outside the range R121 gives, `rn64` is the model's choice, log entry 8. -/
def Obligations.RoundingIsNearest : Prop :=
  ∀ (q : ℚ) (k j : ℤ), 0 < q → 2 ^ 52 ≤ k → k < 2 ^ 53 →
    |rn64 q - q| ≤ |(k : ℚ) * (2 : ℚ) ^ (j - 52) - q|

/-- `RN64` is monotone, as the inference R133 uses. Outside the range R121 gives, `rn64` is the model's choice,
log entry 8. -/
def Obligations.RoundingIsMonotone : Prop := ∀ a b : ℚ, 0 < a → a ≤ b → rn64 a ≤ rn64 b

/-- R122: the bit pattern of a positive normal value: sign 0, biased exponent, fraction. -/
def Obligations.BitPatternFields : Prop :=
  (∀ (n e : ℤ), 2 ^ 52 ≤ n → n < 2 ^ 53 → -1022 ≤ e → e ≤ 1023 →
    (bits64 ((n : ℚ) * (2 : ℚ) ^ (e - 52))).extractLsb' 63 1 = 0 ∧
    (((bits64 ((n : ℚ) * (2 : ℚ) ^ (e - 52))).extractLsb' 52 11).toNat : ℤ) = e + 1023 ∧
    (((bits64 ((n : ℚ) * (2 : ℚ) ^ (e - 52))).extractLsb' 0 52).toNat : ℤ) = n - 2 ^ 52) ∧
  bits64 (rn64 (673 / 1000) * 16) = 0x402589374BC6A7F0

/-- R123, R124: the branches of the exact alpha and of its binary64 evaluation, with half-open boundaries; the
literals' bit patterns; and the thirteen constants, one per legal precision. -/
def Obligations.AlphaBranchesAndTable : Prop :=
  (∀ m : Nat, m < 32 → alphaQ m = 673 / 1000 ∧ alpha64 m = rn64 (673 / 1000)) ∧
  (∀ m : Nat, 32 ≤ m → m < 64 → alphaQ m = 697 / 1000 ∧ alpha64 m = rn64 (697 / 1000)) ∧
  (∀ m : Nat, 64 ≤ m → m < 128 → alphaQ m = 709 / 1000 ∧ alpha64 m = rn64 (709 / 1000)) ∧
  (∀ m : Nat, 128 ≤ m → alphaQ m = (7213 / 10000) / (1 + (1079 / 1000) / m) ∧
    alpha64 m = rn64 (rn64 (7213 / 10000) / rn64 (1 + rn64 (rn64 (1079 / 1000) / m)))) ∧
  (∀ p : Nat, 7 ≤ p → p ≤ 16 →
    rn64 (rn64 (1079 / 1000) / (2 : ℚ) ^ p) = rn64 (1079 / 1000) / (2 : ℚ) ^ p) ∧
  bits64 (rn64 (1079 / 1000)) = 0x3FF14395810624DD ∧ bits64 (rn64 (7213 / 10000)) = 0x3FE714E3BCD35A86 ∧
  (∀ x ∈ [(4, 0x3FE589374BC6A7F0), (5, 0x3FE64DD2F1A9FBE7), (6, 0x3FE6B020C49BA5E3),
      (7, 0x3FE6E37EF20B947A), (8, 0x3FE6FC16CE33D64D), (9, 0x3FE70876987DC1B0),
      (10, 0x3FE70EAB7E0DB3E2), (11, 0x3FE711C7321E7B57), (12, 0x3FE713555C9EFABF),
      (13, 0x3FE7141C860200C7), (14, 0x3FE714801FBCCD72), (15, 0x3FE714B1EDDC9938),
      (16, 0x3FE714CAD53D1AD7)],
    bits64 (alpha64 (2 ^ x.1)) = BitVec.ofNat 64 x.2)

/-- R125, the part the spec marks as derived: on an estimator that meets the invariant of the reachable states
the binary64 sum is the exact sum, in any order of summation, and is what the fixed-point accumulator of 17
integer and 29 fraction bits holds; and the bounds of `S` and `z`. -/
def Obligations.BinarySumIsExact : Prop :=
  ∀ e : Estimator, e.Inv →
    sum64 e.cells = sumExact e.cells ∧
    (∀ order : List Byte, order.Perm e.cells → sum64 order = sumExact e.cells) ∧
    ((sumFixed e.cells).toNat : ℚ) = sumExact e.cells * 2 ^ 29 ∧
    (2 : ℚ) ^ (2 * (e.p.toNat : ℤ) - 33) ≤ sumExact e.cells ∧ sumExact e.cells ≤ 2 ^ e.p.toNat ∧
    (2 : ℚ) ^ (-16 : ℤ) ≤ rn64 (1 / sum64 e.cells) ∧ rn64 (1 / sum64 e.cells) ≤ 2 ^ 25

/-- R126, and of R127 the part the spec marks as derived: the multiplication by `m^2` is exact, and the three
ways of associating the product give the same value. -/
def Obligations.ProductAssociationsAgree : Prop :=
  ∀ e : Estimator, e.Inv →
    rn64 (alpha64 e.m * 2 ^ (2 * e.p.toNat)) = alpha64 e.m * 2 ^ (2 * e.p.toNat) ∧
    ((e.m : ℚ)) ^ 2 = 2 ^ (2 * e.p.toNat) ∧
    e.estimate = rn64 (alpha64 e.m * rn64 (2 ^ (2 * e.p.toNat) * rn64 (1 / sum64 e.cells))) ∧
    e.estimate = rn64 (alpha64 e.m * rn64 (1 / sum64 e.cells)) * 2 ^ (2 * e.p.toNat)

/-- R130: a fresh estimator's `EST` answers `alpha64(m) * m`, which is not 0; the thirteen values. -/
def Obligations.FreshEstimateIsAlphaTimesCount : Prop :=
  (∀ (v : BitVec 32) (s : State), 4 ≤ v.toNat → v.toNat ≤ 16 →
    ∃ t, execAll [.init v, .est] s = .next t ∧
      t.responses = s.responses ++
        [⟨.ok, 0⟩, ⟨.ok, bits64 (alpha64 (2 ^ v.toNat) * 2 ^ v.toNat)⟩]) ∧
  (∀ x ∈ [(4, 0x402589374BC6A7F0), (5, 0x40364DD2F1A9FBE7), (6, 0x4046B020C49BA5E3),
      (7, 0x4056E37EF20B947A), (8, 0x4066FC16CE33D64D), (9, 0x40770876987DC1B0),
      (10, 0x40870EAB7E0DB3E2), (11, 0x409711C7321E7B57), (12, 0x40A713555C9EFABF),
      (13, 0x40B7141C860200C7), (14, 0x40C714801FBCCD72), (15, 0x40D714B1EDDC9938),
      (16, 0x40E714CAD53D1AD7)],
    bits64 (alpha64 (2 ^ x.1) * 2 ^ x.1) = BitVec.ofNat 64 x.2 ∧ BitVec.ofNat 64 x.2 ≠ 0)

/-- R132, which the spec marks as derived: on an estimator that meets the invariant the estimate lies between
`alpha64(m) * m` and `alpha64(m) * 2^33`, and the greatest is reached when every cell holds `33 - p`. The values of
R124 (`c`, `k`, `t`, `u` and alpha), the terms and every partial sum of R125, the sum, the indicator, the scaled
alpha and the estimate are positive normal binary64 numbers. -/
def Obligations.EstimateRange : Prop :=
  ∀ e : Estimator, e.Inv →
    alpha64 e.m * e.m ≤ e.estimate ∧ e.estimate ≤ alpha64 e.m * 2 ^ 33 ∧
    ((∀ i, i < e.m → (RegFile.read e.regs i).toNat = 33 - e.p.toNat) →
      e.estimate = alpha64 e.m * 2 ^ 33) ∧
    (∀ x ∈ [rn64 (1079 / 1000), rn64 (7213 / 10000), rn64 (rn64 (1079 / 1000) / e.m),
        rn64 (1 + rn64 (rn64 (1079 / 1000) / e.m)), alpha64 e.m, sum64 e.cells, rn64 (1 / sum64 e.cells),
        rn64 (alpha64 e.m * 2 ^ (2 * e.p.toNat)), e.estimate],
      IsPositiveNormal x) ∧
    (∀ r ∈ e.cells, IsPositiveNormal (cellTerm r)) ∧
    (∀ k, 1 ≤ k → k ≤ e.m → IsPositiveNormal (sum64 (e.cells.take k)))

/-- R133, which the spec marks as derived: along any commands with no successful `INIT`, the exact sum does not
increase, the exact estimate and the binary64 estimate do not decrease, and neither does the answered bit pattern
as a number. -/
def Obligations.EstimateNeverDecreases : Prop :=
  ∀ (is : List Instr) (s t : State) (e : Estimator), s.block = .configured e → e.Inv →
    (∀ v, .init v ∈ is → v.toNat < 4 ∨ 16 < v.toNat) → execAll is s = .next t →
    ∃ e', t.block = .configured e' ∧ sumExact e'.cells ≤ sumExact e.cells ∧
      estimateExact e.p.toNat e.cells ≤ estimateExact e'.p.toNat e'.cells ∧
      e.estimate ≤ e'.estimate ∧ (bits64 e.estimate).toNat ≤ (bits64 e'.estimate).toNat

/-- R134, which the spec marks as derived: `EST` depends on the multiset of the register values only. -/
def Obligations.EstimateDependsOnMultiset : Prop :=
  ∀ (s s' : State) (e e' : Estimator), s.block = .configured e → s'.block = .configured e' →
    e.Inv → e'.Inv → e.p = e'.p → e.cells.Perm e'.cells →
    ∃ d, exec .est s = .next { s with responses := s.responses ++ [⟨.ok, d⟩] } ∧
      exec .est s' = .next { s' with responses := s'.responses ++ [⟨.ok, d⟩] }

/-- R135, which the spec marks as derived: the relative error of the estimate against the exact value of the
formula. -/
def Obligations.EstimateErrorBound : Prop :=
  ∀ e : Estimator, e.Inv →
    |e.estimate / estimateExact e.p.toNat e.cells - 1| ≤ 7 * (2 : ℚ) ^ (-53 : ℤ)

/-- R136: two roundings after the sum against one is observable on the rule's example. -/
def Obligations.TwoRoundingsAreObservable : Prop :=
  bits64 (Estimator.estimate ⟨4, [(10, 2)]⟩) = 0x4026985B96D8D1C6 ∧
  bits64 (rn64 (rn64 (alpha64 16 * 2 ^ 8) / sum64 (Estimator.cells ⟨4, [(10, 2)]⟩))) = 0x4026985B96D8D1C5

/-! ### CNT and RDREG -/

/-- R140: on a configured block `CNT` answers `OK` with `2^p` and changes nothing; on the reachable states that
is one of thirteen values, and the number of cells `RDREG` can read; unconfigured, `NOT_CONFIGURED`. No command
but a successful `INIT` changes what it answers. -/
def Obligations.CntAnswersRegisterCount : Prop :=
  (∀ s : State, s.block = .unconfigured →
    exec .cnt s = .next { s with responses := s.responses ++ [⟨.notConfigured, 0⟩] }) ∧
  (∀ (s : State) (e : Estimator), s.block = .configured e →
    ∃ d, exec .cnt s = .next { s with responses := s.responses ++ [⟨.ok, d⟩] } ∧
      d.toNat = 2 ^ e.p.toNat ∧ d.toNat = e.cells.length ∧
      (e.Inv → d.toNat ∈ [16, 32, 64, 128, 256, 512, 1024, 2048, 4096, 8192, 16384, 32768, 65536])) ∧
  (∀ (is : List Instr) (s t : State) (e : Estimator), s.block = .configured e →
    (∀ v, .init v ∈ is → v.toNat < 4 ∨ 16 < v.toNat) → execAll is s = .next t →
    ∃ d, exec .cnt s = .next { s with responses := s.responses ++ [⟨.ok, d⟩] } ∧
      exec .cnt t = .next { t with responses := t.responses ++ [⟨.ok, d⟩] })

/-- R141, R158: the configuration check first, then `BAD_INDEX` for `idx >= 2^p`, then the cell zero-extended;
nothing changes; at `p = 16` no index is bad; the data is at most 29 on the reachable states; no command but an
`ADD` to that cell or an `INIT` changes the answer; the example of the rule. -/
def Obligations.RdregAnswersCell : Prop :=
  (∀ (idx : BitVec 16) (s : State), s.block = .unconfigured →
    exec (.rdreg idx) s = .next { s with responses := s.responses ++ [⟨.notConfigured, 0⟩] }) ∧
  (∀ (idx : BitVec 16) (s : State) (e : Estimator), s.block = .configured e → 2 ^ e.p.toNat ≤ idx.toNat →
    exec (.rdreg idx) s = .next { s with responses := s.responses ++ [⟨.badIndex, 0⟩] }) ∧
  (∀ (idx : BitVec 16) (s : State) (e : Estimator), s.block = .configured e → idx.toNat < 2 ^ e.p.toNat →
    exec (.rdreg idx) s = .next { s with responses := s.responses ++
      [⟨.ok, (RegFile.read e.regs idx.toNat).setWidth 64⟩] }) ∧
  (∀ (idx : BitVec 16) (p : Precision), p = 16 → idx.toNat < 2 ^ p.toNat) ∧
  (∀ (idx : BitVec 16) (e : Estimator), e.Inv → (RegFile.read e.regs idx.toNat).toNat ≤ 29) ∧
  (∀ (idx : BitVec 16) (i : Instr) (s t : State) (e : Estimator), s.block = .configured e →
    idx.toNat < 2 ^ e.p.toNat → (∀ v, i ≠ .init v) → (∀ h, i = .add h → index h e.p ≠ idx.toNat) →
    exec i s = .next t →
    ∃ d, exec (.rdreg idx) s = .next { s with responses := s.responses ++ [⟨.ok, d⟩] } ∧
      exec (.rdreg idx) t = .next { t with responses := t.responses ++ [⟨.ok, d⟩] }) ∧
  (∀ s : State, ∃ t, execAll [.init 4, .add 2766284370, .rdreg 10, .rdreg 9, .rdreg 16] s = .next t ∧
    t.responses = s.responses ++ [⟨.ok, 0⟩, ⟨.ok, 0⟩, ⟨.ok, 2⟩, ⟨.ok, 0⟩, ⟨.badIndex, 0⟩])

/-- R142, which the spec marks as derived: reading cells in any order, with no other command between, returns the
vector as it stood. -/
def Obligations.ReadingTheWholeVector : Prop :=
  ∀ (order : List (BitVec 16)) (s : State) (e : Estimator), s.block = .configured e →
    (∀ i ∈ order, i.toNat < 2 ^ e.p.toNat) →
    execAll (order.map .rdreg) s =
      .next ⟨s.block, s.inputs,
        s.responses ++ order.map (fun i => ⟨.ok, (RegFile.read e.regs i.toNat).setWidth 64⟩)⟩

/-- From R48, and R56, which the spec marks as derived: `EST`, `CNT` and `RDREG` change no state, so repeating
one, with any of them between, gives the same response. -/
def Obligations.ReadCommandsAreRepeatable : Prop :=
  ∀ (i : Instr) (between : List Instr) (s u : State),
    (∀ j ∈ i :: between, j = .est ∨ j = .cnt ∨ ∃ idx, j = .rdreg idx) →
    execAll (i :: between ++ [i]) s = .next u →
    u.block = s.block ∧ u.inputs = s.inputs ∧
    ∃ r rs, rs.length = between.length ∧ u.responses = s.responses ++ [r] ++ rs ++ [r]

/-! ### Errors -/

/-- R155: while unconfigured `ADD`, `EST`, `CNT` and `RDREG` answer `NOT_CONFIGURED` with data 0 and change
nothing; `INIT` never does. -/
def Obligations.UnconfiguredCommandsRefused : Prop :=
  (∀ (i : Instr) (s : State), s.block = .unconfigured → (∀ v, i ≠ .init v) →
    exec i s = .next { s with responses := s.responses ++ [⟨.notConfigured, 0⟩] }) ∧
  (∀ (v : BitVec 32) (s t : State) (r : Response), exec (.init v) s = .next t →
    t.responses = s.responses ++ [r] → r.status ≠ .notConfigured)

/-- R150: an error is precise and leaves nothing behind: when the response's code is not 0 the block is exactly
as before the command. -/
def Obligations.ErrorsArePrecise : Prop :=
  ∀ (s t : State) (w : CmdWord) (rest : List HostInput) (r : Response), s.inputs = .command w :: rest →
    step s = .next t → t.responses = s.responses ++ [r] → r.status.code ≠ 0 →
    t = { block := s.block, inputs := rest, responses := s.responses ++ [r] }

/-- R153, R159: the checks in their fixed order decide the one response: decode; configuration, for every command
but `INIT`; operand. Once configured, `ADD`, `EST` and `CNT` always answer `OK`. -/
def Obligations.CheckOrder : Prop :=
  ∀ (s : State) (w : CmdWord) (rest : List HostInput), s.inputs = .command w :: rest →
    ∃ t r, step s = .next t ∧ t.responses = s.responses ++ [r] ∧
      (∀ err, decode w = .error err → r = ⟨.illegalCmd, 0⟩) ∧
      (∀ v, decode w = .ok (.init v) →
        (v.toNat < 4 ∨ 16 < v.toNat → r = ⟨.invalidPrecision, v.setWidth 64⟩) ∧
        (4 ≤ v.toNat → v.toNat ≤ 16 → r = ⟨.ok, 0⟩)) ∧
      (∀ i, decode w = .ok i → (∀ v, i ≠ .init v) → s.block = .unconfigured → r = ⟨.notConfigured, 0⟩) ∧
      (∀ i e, decode w = .ok i → s.block = .configured e →
        (∀ idx, i = .rdreg idx → 2 ^ e.p.toNat ≤ idx.toNat → r = ⟨.badIndex, 0⟩) ∧
        (∀ idx, i = .rdreg idx → idx.toNat < 2 ^ e.p.toNat → r.status = .ok) ∧
        ((∃ h, i = .add h) ∨ i = .est ∨ i = .cnt → r.status = .ok))

/-! ### Invariants -/

/-- The machine right after reset meets the invariant. -/
def Obligations.ResetMeetsInvariant : Prop := State.reset.Inv

/-- From R30, and R32, which the spec marks as derived: every step keeps the invariant (`4 <= p <= 16`, cells
only below `2^p`, every cell at most `33 - p`, the register list in canonical form), from every state that meets
it. The canonical form is the model's, log entry 7. -/
def Obligations.StepKeepsInvariant : Prop := ∀ s t : State, s.Inv → step s = .next t → t.Inv

/-- R30, and R32, which the spec marks as derived: in every state the block can be in after reset and any inputs
of the host, a configured block has `4 <= p <= 16`, exactly `2^p` cells, and every cell is 0 or in `1 .. 33 - p`,
so at most 29. `Estimator.Inv` also holds the canonical form of the register list, the model's, log entry 7; the
list of inputs the host issues is the model's, log entry 2. -/
def Obligations.ReachableStatesMeetInvariant : Prop :=
  ∀ (s : State) (e : Estimator), Reachable s → s.block = .configured e →
    e.Inv ∧ 4 ≤ e.p.toNat ∧ e.p.toNat ≤ 16 ∧ e.cells.length = 2 ^ e.p.toNat ∧
    (∀ i, 2 ^ e.p.toNat ≤ i → RegFile.read e.regs i = 0) ∧
    (∀ r ∈ e.cells, (r = 0 ∨ 1 ≤ r.toNat ∧ r.toNat ≤ 33 - e.p.toNat) ∧ r.toNat ≤ 29 ∧
      r.extractLsb' 5 3 = 0)

/-- R31: a step that is neither a reset nor a successful `INIT` leaves `p` as it is, lowers no cell, and changes
at most one. -/
def Obligations.CellsNeverDecrease : Prop :=
  ∀ (s t : State) (e : Estimator), s.block = .configured e → RegFile.wf e.regs → step s = .next t →
    (∀ rest, s.inputs ≠ .reset :: rest) →
    (∀ w rest v, s.inputs = .command w :: rest → decode w = .ok (.init v) →
      v.toNat < 4 ∨ 16 < v.toNat) →
    ∃ e', t.block = .configured e' ∧ e'.p = e.p ∧
      (∀ i, RegFile.read e.regs i ≤ RegFile.read e'.regs i) ∧
      (∀ i j, RegFile.read e'.regs i ≠ RegFile.read e.regs i →
        RegFile.read e'.regs j ≠ RegFile.read e.regs j → i = j)

/-- What every command leaves unchanged: the inputs still to come always; the block too, unless it is a
successful `INIT` or an `ADD` on a configured block; and of that, an `ADD` leaves `p` and every cell but its own.
-/
def Obligations.CommandFrames : Prop :=
  ∀ (i : Instr) (s t : State), exec i s = .next t →
    t.inputs = s.inputs ∧ (∃ r, t.responses = s.responses ++ [r]) ∧
    (i = .est ∨ i = .cnt ∨ (∃ idx, i = .rdreg idx) ∨
      (∃ v, i = .init v ∧ (v.toNat < 4 ∨ 16 < v.toNat)) ∨ (∃ h, i = .add h ∧ s.block = .unconfigured) →
      t.block = s.block) ∧
    (∀ h e, i = .add h → s.block = .configured e →
      ∃ e', t.block = .configured e' ∧ e'.p = e.p ∧
        ∀ j, j ≠ index h e.p → RegFile.read e'.regs j = RegFile.read e.regs j)

/-! ### The model's own forms -/

/-- From R177: every state has a next state. With nothing issued that is the idle step, the model's choice, log
entry 5. -/
def Obligations.EveryStepHasNextState : Prop := ∀ s : State, ∃ t, step s = .next t

/-- The canonical form of the register list, the model's, log entry 7: every step keeps it, whatever the precision
and the values in the cells, and a successful `INIT` gives it from any state. -/
def Obligations.RegisterListStaysCanonical : Prop :=
  (∀ s t : State, s.block.Canonical → step s = .next t → t.block.Canonical) ∧
  (∀ (i : Instr) (s t : State), s.block.Canonical → exec i s = .next t → t.block.Canonical) ∧
  (∀ (v : BitVec 32) (s t : State), 4 ≤ v.toNat → v.toNat ≤ 16 → exec (.init v) s = .next t →
    t.block.Canonical)
end

