-- ==== Sys2Proof/Laws/Binary64.lean ====
section
/-! SUPPORT. The evaluation aids are identities, and one equation for each list function of the sum. -/

namespace Sys2Proof.Machine

@[simp] theorem strictNat_eq {α : Type} (n : Nat) (k : Nat → α) : strictNat n k = k n := by
  cases n <;> rfl

@[simp] theorem evaluate_eq (q : ℚ) : evaluate q = .mk q := by
  unfold evaluate
  split
  · rename_i a h
    have hq := Rat.mkRat_self q
    rw [h] at hq
    simp only [strictNat_eq]
    exact congrArg Evaluated.mk hq
  · rfl

@[simp] theorem addTerms_nil (acc : ℚ) : addTerms acc [] = acc := rfl

@[simp] theorem addTerms_cons (acc : ℚ) (r : Byte) (rest : List Byte) :
    addTerms acc (r :: rest) = addTerms (rn64 (acc + cellTerm r)) rest := by
  simp [addTerms]

@[simp] theorem sum64_cons (r : Byte) (rest : List Byte) : sum64 (r :: rest) = addTerms (cellTerm r) rest := rfl

@[simp] theorem sumExact_nil : sumExact [] = 0 := rfl

@[simp] theorem sumExact_cons (r : Byte) (rest : List Byte) :
    sumExact (r :: rest) = cellTerm r + sumExact rest := by
  simp [sumExact]

theorem cellTerm_pos (r : Byte) : 0 < cellTerm r := by
  unfold cellTerm
  positivity

end Sys2Proof.Machine
end

