-- ==== Sys2Proof/Laws/Words.lean ====
section
/-! SUPPORT. Fields of the command and response words. -/

namespace Sys2Proof

@[simp] theorem opField_makeWord (op : BitVec 8) (arg : BitVec 32) : opField (makeWord op arg) = op := by
  apply BitVec.eq_of_getLsbD_eq
  intro i hi
  simp only [opField, makeWord, BitVec.getLsbD_extractLsb', BitVec.getLsbD_append, hi, decide_true,
    Bool.true_and]
  simp

@[simp] theorem argField_makeWord (op : BitVec 8) (arg : BitVec 32) : argField (makeWord op arg) = arg := by
  apply BitVec.eq_of_getLsbD_eq
  intro i hi
  simp only [argField, makeWord, BitVec.getLsbD_extractLsb', Nat.zero_add, BitVec.getLsbD_append, hi,
    decide_true, Bool.true_and, if_true]

@[simp] theorem makeWord_fields (w : CmdWord) : makeWord (opField w) (argField w) = w := by
  apply BitVec.eq_of_getLsbD_eq
  intro i hi
  simp only [opField, argField, makeWord, BitVec.getLsbD_append, BitVec.getLsbD_extractLsb']
  by_cases h : i < 32
  · simp [h]
  · have h8 : i - 32 < 8 := by omega
    have hi' : 32 + (i - 32) = i := by omega
    simp [h, h8, hi']

/-- Two words are the same exactly when both fields are. -/
theorem makeWord_inj {a c : BitVec 8} {b d : BitVec 32} : makeWord a b = makeWord c d ↔ a = c ∧ b = d := by
  constructor
  · intro h
    exact ⟨by simpa using congrArg opField h, by simpa using congrArg argField h⟩
  · rintro ⟨rfl, rfl⟩
    rfl

/-- Masking a word masks its fields. -/
theorem makeWord_and (a c : BitVec 8) (b d : BitVec 32) :
    makeWord a b &&& makeWord c d = makeWord (a &&& c) (b &&& d) := by
  apply BitVec.eq_of_getLsbD_eq
  intro i _
  simp only [makeWord, BitVec.getLsbD_and, BitVec.getLsbD_append]
  split <;> rfl

/-- A row given by its fields selects the words whose masked fields are its pattern's. -/
theorem selects_fields (n : String) (po mo op : BitVec 8) (pa ma arg : BitVec 32) :
    OpcodeRow.selects ⟨n, makeWord po pa, makeWord mo ma⟩ (makeWord op arg) =
      decide (op &&& mo = po ∧ arg &&& ma = pa) := by
  simp only [OpcodeRow.selects, makeWord_and, makeWord_inj]

/-- The opcode table with each word written by its fields. -/
theorem opcodeTable_fields : opcodeTable =
    [ ⟨"INIT", makeWord 0x01 0, makeWord 0xFF 0⟩,
      ⟨"ADD", makeWord 0x02 0, makeWord 0xFF 0⟩,
      ⟨"EST", makeWord 0x03 0, makeWord 0xFF 0xFFFFFFFF⟩,
      ⟨"CNT", makeWord 0x04 0, makeWord 0xFF 0xFFFFFFFF⟩,
      ⟨"RDREG", makeWord 0x05 0, makeWord 0xFF 0xFFFF0000⟩ ] := by
  decide

/-- A zero-extended 16-bit index has no high bits. -/
theorem index_and_high (idx : BitVec 16) : idx.setWidth 32 &&& 0xFFFF0000#32 = 0 := by
  apply BitVec.eq_of_getLsbD_eq
  intro i hi
  simp only [BitVec.getLsbD_and, BitVec.getLsbD_setWidth]
  by_cases h : i < 16
  · have : (0xFFFF0000#32).getLsbD i = false := by interval_cases i <;> rfl
    simp [this]
  · simp [BitVec.getLsbD_of_ge idx i (by omega)]

end Sys2Proof
end

