-- ==== Sys2Proof/Laws/PerInstr.lean ====
section
/-! SUPPORT. Statements made for every command, one lemma per constructor. -/

namespace Sys2Proof.Laws.RowSelection

/-- The encoded word of a command selects its own row of the opcode table and no other (R64). -/
def Statement (i : Instr) : Prop :=
  ∀ r ∈ opcodeTable, r.selects (encode i) = decide (r.mnemonic = i.mnemonic)

theorem init (v : BitVec 32) : Statement (.init v) := by
  simp [Statement, opcodeTable_fields, encode, selects_fields, Instr.mnemonic]

theorem add (h : Hash) : Statement (.add h) := by
  simp [Statement, opcodeTable_fields, encode, selects_fields, Instr.mnemonic]

theorem est : Statement .est := by unfold Statement; decide

theorem cnt : Statement .cnt := by unfold Statement; decide

theorem rdreg (idx : BitVec 16) : Statement (.rdreg idx) := by
  have h := index_and_high idx
  simp [Statement, opcodeTable_fields, encode, selects_fields, Instr.mnemonic, h]

end Sys2Proof.Laws.RowSelection
end

