-- ==== Sys2Proof/Laws/RegFile.lean ====
section
/-! SUPPORT. The register file: reads after writes, the canonical form, and that equal reads are equal data. -/

namespace Sys2Proof.Machine

@[simp] theorem read_cleared (i : Nat) : RegFile.read RegFile.cleared i = 0 := rfl

theorem cleared_wf : RegFile.wf RegFile.cleared := by decide

/-- An index below every listed one reads as unlisted. -/
theorem read_of_lt {regs : RegFile} {i : Nat} (h : ∀ c ∈ regs, i < c.1) :
    RegFile.read regs i = RegFile.unlisted := by
  induction regs with
  | nil => rfl
  | cons c rest ih =>
    have hc : c.1 ≠ i := (h c (by simp)).ne'
    simp only [RegFile.read, hc, if_false]
    exact ih fun d hd => h d (by simp [hd])

/-- A cell that does not read as unlisted is listed with the value it reads. -/
theorem mem_of_read_ne {regs : RegFile} {i : Nat} (h : RegFile.read regs i ≠ RegFile.unlisted) :
    (i, RegFile.read regs i) ∈ regs := by
  induction regs with
  | nil => exact absurd rfl h
  | cons c rest ih =>
    obtain ⟨j, u⟩ := c
    by_cases hj : j = i
    · simp [RegFile.read, hj]
    · simp only [RegFile.read, hj, if_false] at h ⊢
      exact List.mem_cons_of_mem _ (ih h)

/-- A read gives a listed value of that index, or the unlisted value. -/
theorem read_cases (regs : RegFile) (i : Nat) :
    RegFile.read regs i = RegFile.unlisted ∨ (i, RegFile.read regs i) ∈ regs := by
  by_cases h : RegFile.read regs i = RegFile.unlisted
  · exact .inl h
  · exact .inr (mem_of_read_ne h)

theorem mem_cons_cases {i : Nat} {v : Byte} {rest : RegFile} {c : Host.Cell}
    (h : c ∈ RegFile.cons i v rest) : c = (i, v) ∨ c ∈ rest := by
  unfold RegFile.cons at h
  split at h
  · exact .inr h
  · simpa using h

/-- Every entry after a write is the written one or was there before. -/
theorem mem_write_cases {regs : RegFile} {i : Nat} {v : Byte} {c : Host.Cell}
    (h : c ∈ RegFile.write regs i v) : c = (i, v) ∨ c ∈ regs := by
  induction regs with
  | nil => exact mem_cons_cases h
  | cons d rest ih =>
    obtain ⟨j, u⟩ := d
    simp only [RegFile.write] at h
    split at h
    · exact mem_cons_cases h
    · split at h
      · exact (mem_cons_cases h).imp_right (List.mem_cons_of_mem _)
      · rcases List.mem_cons.mp h with rfl | h
        · exact .inr (by simp)
        · exact (ih h).imp_right (List.mem_cons_of_mem _)

theorem wf_tail {c : Host.Cell} {rest : RegFile} (h : RegFile.wf (c :: rest)) : RegFile.wf rest :=
  ⟨(List.pairwise_cons.mp h.1).2, fun d hd => h.2 d (by simp [hd])⟩

theorem cons_wf {i : Nat} {v : Byte} {rest : RegFile} (h : RegFile.wf rest) (hi : ∀ c ∈ rest, i < c.1) :
    RegFile.wf (RegFile.cons i v rest) := by
  unfold RegFile.cons
  split
  · exact h
  · rename_i hv
    refine ⟨List.pairwise_cons.mpr ⟨hi, h.1⟩, ?_⟩
    intro c hc
    rcases List.mem_cons.mp hc with rfl | hc
    · exact hv
    · exact h.2 c hc

/-- A write keeps the canonical form. -/
theorem write_wf {regs : RegFile} (h : RegFile.wf regs) (i : Nat) (v : Byte) :
    RegFile.wf (RegFile.write regs i v) := by
  induction regs with
  | nil => exact cons_wf h (by simp)
  | cons d rest ih =>
    obtain ⟨j, u⟩ := d
    have hrest := wf_tail h
    have hj : ∀ c ∈ rest, j < c.1 := (List.pairwise_cons.mp h.1).1
    simp only [RegFile.write]
    split
    · rename_i hij
      refine cons_wf h fun c hc => ?_
      rcases List.mem_cons.mp hc with rfl | hc
      · exact hij
      · exact hij.trans (hj c hc)
    · split
      · rename_i hij
        exact cons_wf hrest fun c hc => hij ▸ hj c hc
      · rename_i hlt hne
        refine ⟨List.pairwise_cons.mpr ⟨fun c hc => ?_, (ih hrest).1⟩, fun c hc => ?_⟩
        · rcases mem_write_cases hc with rfl | hc
          · exact Nat.lt_of_le_of_ne (Nat.le_of_not_lt hlt) (Ne.symm hne)
          · exact hj c hc
        · rcases List.mem_cons.mp hc with rfl | hc
          · exact h.2 _ (by simp)
          · exact (ih hrest).2 c hc

theorem read_cons_self {i : Nat} {v : Byte} {rest : RegFile} (hi : ∀ c ∈ rest, i < c.1) :
    RegFile.read (RegFile.cons i v rest) i = v := by
  unfold RegFile.cons
  split
  · rename_i hv
    rw [read_of_lt hi, hv]
  · simp [RegFile.read]

theorem read_cons_other {i j : Nat} {v : Byte} {rest : RegFile} (h : j ≠ i) :
    RegFile.read (RegFile.cons i v rest) j = RegFile.read rest j := by
  unfold RegFile.cons
  split
  · rfl
  · simp [RegFile.read, h.symm]

/-- A read after a write to the same cell gives the value written. -/
theorem read_write_self {regs : RegFile} (h : RegFile.wf regs) (i : Nat) (v : Byte) :
    RegFile.read (RegFile.write regs i v) i = v := by
  induction regs with
  | nil => exact read_cons_self (by simp)
  | cons d rest ih =>
    obtain ⟨j, u⟩ := d
    have hj : ∀ c ∈ rest, j < c.1 := (List.pairwise_cons.mp h.1).1
    simp only [RegFile.write]
    split
    · rename_i hij
      refine read_cons_self fun c hc => ?_
      rcases List.mem_cons.mp hc with rfl | hc
      · exact hij
      · exact hij.trans (hj c hc)
    · split
      · rename_i hij
        exact read_cons_self fun c hc => hij ▸ hj c hc
      · rename_i hne
        simp only [RegFile.read, Ne.symm hne, if_false]
        exact ih (wf_tail h)

/-- A write leaves every other cell as it was. -/
theorem read_write_other (regs : RegFile) {i j : Nat} (v : Byte) (h : j ≠ i) :
    RegFile.read (RegFile.write regs i v) j = RegFile.read regs j := by
  induction regs with
  | nil => exact read_cons_other h
  | cons d rest ih =>
    obtain ⟨k, u⟩ := d
    simp only [RegFile.write]
    split
    · exact read_cons_other h
    · split
      · rename_i hik
        subst hik
        rw [read_cons_other h]
        simp [RegFile.read, h.symm]
      · simp only [RegFile.read]
        split
        · rfl
        · exact ih

/-- A listed entry of a canonical file is what its index reads. -/
theorem read_of_mem {regs : RegFile} (h : RegFile.wf regs) {c : Host.Cell} (hc : c ∈ regs) :
    RegFile.read regs c.1 = c.2 := by
  induction regs with
  | nil => simp at hc
  | cons d rest ih =>
    rcases List.mem_cons.mp hc with rfl | hc
    · simp [RegFile.read]
    · have hlt : d.1 < c.1 := (List.pairwise_cons.mp h.1).1 c hc
      simp only [RegFile.read, hlt.ne, if_false]
      exact ih (wf_tail h) hc

/-- Canonical files that read alike are the same data. -/
theorem wf_ext {a b : RegFile} (ha : RegFile.wf a) (hb : RegFile.wf b)
    (h : ∀ i, RegFile.read a i = RegFile.read b i) : a = b := by
  have sub : ∀ {x y : RegFile}, RegFile.wf x → RegFile.wf y →
      (∀ i, RegFile.read x i = RegFile.read y i) → ∀ c ∈ x, c ∈ y := by
    intro x y hx _ hxy c hc
    have hr := read_of_mem hx hc
    have hne : RegFile.read y c.1 ≠ RegFile.unlisted := by
      rw [← hxy, hr]
      exact hx.2 c hc
    have := mem_of_read_ne hne
    rwa [← hxy, hr] at this
  have hnd : ∀ {x : RegFile}, RegFile.wf x → x.Nodup := fun hx =>
    hx.1.imp fun hlt heq => absurd hlt (by rw [heq]; exact lt_irrefl _)
  have hperm : a.Perm b :=
    (List.perm_ext_iff_of_nodup (hnd ha) (hnd hb)).mpr fun c =>
      ⟨sub ha hb h c, sub hb ha (fun i => (h i).symm) c⟩
  exact hperm.eq_of_pairwise (fun x y _ _ h1 h2 => absurd (h1.trans h2) (lt_irrefl _)) ha.1 hb.1

end Sys2Proof.Machine
end

