-- ==== Sys2Proof/Laws/State.lean ====
section
/-! SUPPORT. One lemma per field per update of the state, and what each shared operation can do. -/

namespace Sys2Proof.Machine

/-! ### Fields after an update -/

@[simp] theorem respond_block (st : Status) (d : Data) (s : State) : (s.respond st d).block = s.block := rfl
@[simp] theorem respond_inputs (st : Status) (d : Data) (s : State) : (s.respond st d).inputs = s.inputs := rfl
@[simp] theorem respond_responses (st : Status) (d : Data) (s : State) :
    (s.respond st d).responses = s.responses ++ [⟨st, d⟩] := rfl

@[simp] theorem raise_block (c : ErrorCause) (s : State) : (s.raise c).block = s.block := rfl
@[simp] theorem raise_inputs (c : ErrorCause) (s : State) : (s.raise c).inputs = s.inputs := rfl
@[simp] theorem raise_responses (c : ErrorCause) (s : State) :
    (s.raise c).responses = s.responses ++ [c.response] := rfl

@[simp] theorem construct_block (p : Precision) (s : State) :
    (s.construct p).block = .configured { p := p, regs := RegFile.cleared } := rfl
@[simp] theorem construct_inputs (p : Precision) (s : State) : (s.construct p).inputs = s.inputs := rfl
@[simp] theorem construct_responses (p : Precision) (s : State) :
    (s.construct p).responses = s.responses := rfl

@[simp] theorem setEstimator_block (e : Estimator) (s : State) :
    (s.setEstimator e).block = .configured e := rfl
@[simp] theorem setEstimator_inputs (e : Estimator) (s : State) : (s.setEstimator e).inputs = s.inputs := rfl
@[simp] theorem setEstimator_responses (e : Estimator) (s : State) :
    (s.setEstimator e).responses = s.responses := rfl

@[simp] theorem applyReset_block (s : State) : s.applyReset.block = .unconfigured := rfl
@[simp] theorem applyReset_inputs (s : State) : s.applyReset.inputs = s.inputs := rfl
@[simp] theorem applyReset_responses (s : State) : s.applyReset.responses = s.responses := rfl

@[simp] theorem issue_block (ins : List HostInput) (s : State) : (s.issue ins).block = s.block := rfl
@[simp] theorem issue_inputs (ins : List HostInput) (s : State) : (s.issue ins).inputs = s.inputs ++ ins := rfl
@[simp] theorem issue_responses (ins : List HostInput) (s : State) :
    (s.issue ins).responses = s.responses := rfl

@[simp] theorem withFetchWord_block (s : State) (n w : Nat) : (s.withFetchWord n w).block = s.block := rfl
@[simp] theorem withFetchWord_inputs (s : State) (n w : Nat) :
    (s.withFetchWord n w).inputs = .command (tableWord n w) :: s.inputs := rfl
@[simp] theorem withFetchWord_responses (s : State) (n w : Nat) :
    (s.withFetchWord n w).responses = s.responses := rfl

@[simp] theorem writeCell_p (e : Estimator) (i : Nat) (v : Byte) : (e.writeCell i v).p = e.p := rfl
@[simp] theorem writeCell_regs (e : Estimator) (i : Nat) (v : Byte) :
    (e.writeCell i v).regs = RegFile.write e.regs i v := rfl
@[simp] theorem writeCell_m (e : Estimator) (i : Nat) (v : Byte) : (e.writeCell i v).m = e.m := rfl
@[simp] theorem addHash_p (e : Estimator) (h : Hash) : (e.addHash h).p = e.p := rfl
@[simp] theorem addHash_m (e : Estimator) (h : Hash) : (e.addHash h).m = e.m := rfl

/-! ### The configuration check -/

theorem withEstimator_unconfigured {s : State} (h : s.block = .unconfigured) (k : Estimator → State) :
    s.withEstimator k = s.raise .notConfigured := by
  simp [State.withEstimator, h]

theorem withEstimator_configured {s : State} {e : Estimator} (h : s.block = .configured e)
    (k : Estimator → State) : s.withEstimator k = k e := by
  simp [State.withEstimator, h]

/-- The count check of `INIT` passes for every precision in range (R104). -/
theorem constructChecked_inRange {v : BitVec 32} (h : v.toNat ≤ Config.pMax) (s : State) :
    constructChecked v s = (s.construct (v.setWidth 5)).respond .ok 0 := by
  have hlt : v.toNat < Config.cntW := Nat.lt_of_le_of_lt h (by decide)
  simp [constructChecked, regcount, hlt]

/-! ### What a command and a step can do -/

/-- What a command does to the block: nothing, or a construction, or the update of one cell. -/
theorem exec_block_cases {i : Instr} {s t : State} (h : exec i s = .next t) :
    t.block = s.block ∨
    (∃ v : BitVec 32, i = .init v ∧ Config.pMin ≤ v.toNat ∧ v.toNat ≤ Config.pMax ∧
      t.block = .configured { p := v.setWidth 5, regs := RegFile.cleared }) ∨
    (∃ hash e, i = .add hash ∧ s.block = .configured e ∧ t.block = .configured (e.addHash hash)) := by
  cases i with
  | init v =>
    simp only [exec, execInit] at h
    split at h
    · cases h
      exact .inl rfl
    · rename_i hr
      have hv : Config.pMin ≤ v.toNat ∧ v.toNat ≤ Config.pMax := by omega
      cases h
      exact .inr (.inl ⟨v, rfl, hv.1, hv.2, by simp [constructChecked_inRange hv.2]⟩)
  | add hash =>
    cases h
    cases hb : s.block with
    | unconfigured => exact .inl (by simp [withEstimator_unconfigured hb, hb])
    | configured e => exact .inr (.inr ⟨hash, e, rfl, rfl, by simp [withEstimator_configured hb]⟩)
  | est =>
    cases h
    cases hb : s.block with
    | unconfigured => exact .inl (by simp [withEstimator_unconfigured hb, hb])
    | configured e => exact .inl (by simp [withEstimator_configured hb, hb])
  | cnt =>
    cases h
    cases hb : s.block with
    | unconfigured => exact .inl (by simp [withEstimator_unconfigured hb, hb])
    | configured e => exact .inl (by simp [withEstimator_configured hb, hb])
  | rdreg idx =>
    cases h
    cases hb : s.block with
    | unconfigured => exact .inl (by simp [withEstimator_unconfigured hb, hb])
    | configured e =>
      refine .inl ?_
      rw [withEstimator_configured hb]
      split <;> simp [hb]

/-- What a step does: nothing when the host has issued nothing, a reset, an illegal word's answer, or the
decoded command's execution. -/
theorem step_cases {s t : State} (h : step s = .next t) :
    (s.inputs = [] ∧ t = s) ∨
    (∃ rest, s.inputs = .reset :: rest ∧ t = ({ s with inputs := rest } : State).applyReset) ∨
    (∃ w err rest, s.inputs = .command w :: rest ∧ decode w = .error err ∧
      t = ({ s with inputs := rest } : State).raise .illegalCmd) ∨
    (∃ w i rest, s.inputs = .command w :: rest ∧ decode w = .ok i ∧
      exec i { s with inputs := rest } = .next t) := by
  rcases hin : s.inputs with _ | ⟨input, rest⟩
  · simp only [step, performNext, hin] at h
    cases h
    exact .inl ⟨rfl, rfl⟩
  · simp only [step, performNext, hin] at h
    cases input with
    | reset =>
      cases h
      exact .inr (.inl ⟨rest, rfl, rfl⟩)
    | command w =>
      simp only [performInput, performWord] at h
      cases hd : decode w with
      | error err =>
        rw [hd] at h
        cases h
        exact .inr (.inr (.inl ⟨w, err, rest, rfl, hd, rfl⟩))
      | ok i =>
        rw [hd] at h
        exact .inr (.inr (.inr ⟨w, i, rest, rfl, hd, h⟩))

end Sys2Proof.Machine
end

