-- ==== Sys2Proof/Tests/Slice0.lean ====
section
/-! SUPPORT. Tests on the spec's own vectors (`95_test_vectors.md`), the smoke tests of the well-formedness
checks, and for every statement with hypotheses a witness that meets them. -/

namespace Sys2Proof.Tests

open Sys2Proof Sys2Proof.Machine

/-- A configured machine of precision `p` with the listed cells, and `ins` issued. -/
def configured (p : Precision) (regs : RegFile) (ins : List HostInput) : State :=
  { block := .configured ⟨p, regs⟩, inputs := ins, responses := [] }

/-- The block after executing `i` on `s`, if it gives a next state. -/
def blockAfter (i : Instr) (s : State) : Option Block :=
  match exec i s with
  | .next t => some t.block
  | _ => none

/-- The responses after executing `i` on `s`, if it gives a next state. -/
def responsesAfter (i : Instr) (s : State) : Option (List Response) :=
  match exec i s with
  | .next t => some t.responses
  | _ => none

/-- The responses and the block after one step. -/
def stepResult (s : State) : Option (List Response × Block) :=
  match step s with
  | .next t => some (t.responses, t.block)
  | _ => none

/-! ### Well-formedness: an ill-formed line for each check (R69) -/

theorem test_init_operand_range : AsmLine.wellFormed (.init 4294967296) = false := by decide
theorem test_add_operand_range : AsmLine.wellFormed (.add 4294967296) = false := by decide
theorem test_rdreg_operand_range : AsmLine.wellFormed (.rdreg 65536) = false := by decide
theorem test_word_range : AsmLine.wellFormed (.word 1099511627776) = false := by decide

/-! ### Decoding: words written out bit by bit from R65 -/

theorem test_decode_init :
    decode 0b0000000100000000000000000000000000000100 = .ok (.init 4) := by rfl
theorem test_decode_add :
    decode 0b0000001010100100111000100010011001010010 = .ok (.add 2766284370) := by rfl
theorem test_decode_est :
    decode 0b0000001100000000000000000000000000000000 = .ok .est := by rfl
theorem test_decode_cnt :
    decode 0b0000010000000000000000000000000000000000 = .ok .cnt := by rfl
theorem test_decode_rdreg :
    decode 0b0000010100000000000000001000000000000001 = .ok (.rdreg 32769) := by rfl

/-- V-X8: bit 16 of an `RDREG` word makes it illegal; the index is not truncated. -/
theorem test_decode_rdreg_high_bit :
    decode 0x0500010000 = .error (.indexHighBitsNotZero 1) := by rfl

/-- V-X5. -/
theorem test_decode_est_operand : decode 0x0300000001 = .error (.operandNotZero 3 1) := by rfl

/-- The table's numbering of bits and the fetch agree (R64). -/
theorem test_table_word : decodeTableWord 40 0x0500000010 = some (.rdreg 16) := by decide
theorem test_fetch_word :
    stepResult (State.reset.withFetchWord 40 0x0100000014) =
      some ([⟨.invalidPrecision, 20⟩], .unconfigured) := by decide

/-- R69, R71: a line of text to its word; a line with an operand out of range is refused. -/
theorem test_assemble_text : assembleText "ADD 2766284370 ; moros" = some 0x02A4E22652 := by decide +kernel
theorem test_assemble_refuses : assembleText "INIT 4294967296" = none := by decide +kernel

/-- Hexadecimal digits of either case; a `.word` line with a legal word (log entry 19). -/
theorem test_assemble_hex : assembleText "RDREG 0xfF" = some 0x05000000FF := by decide +kernel
theorem test_assemble_word : assembleText ".word 0x0300000001" = some 0x0300000001 := by decide +kernel

/-! ### The commands, one step each -/

/-- V-I11: a successful `INIT` on a configured block replaces the estimator. -/
theorem test_init_replaces :
    blockAfter (.init 5) (configured 4 [(10, 2)] []) = some (.configured ⟨5, []⟩) := by decide

/-- V-I8: `INIT 36` is refused with data 36 (0x24), though 36 is 4 modulo 32. -/
theorem test_init_no_truncation :
    responsesAfter (.init 36) (configured 4 [(10, 2)] []) = some [⟨.invalidPrecision, 0x24⟩] := by decide

/-- V-A8: only the top remainder bit set; a leading-zero count would leave cell 0 at 1. -/
theorem test_add_trailing_zeros :
    blockAfter (.add 0x08000000) (configured 4 [] []) = some (.configured ⟨4, [(0, 28)]⟩) := by decide

/-- V-A3: a lower rank does not lower the cell. -/
theorem test_add_lower_rank :
    blockAfter (.add 0xA0000001) (configured 4 [(10, 2)] []) = some (.configured ⟨4, [(10, 2)]⟩) := by decide

/-- V-E14: the rounding discriminator of R136. -/
theorem test_est_one_cell :
    responsesAfter .est (configured 4 [(10, 2)] []) = some [⟨.ok, 0x4026985B96D8D1C6⟩] := by decide +kernel

/-- V-E23: the formula branch of alpha. -/
theorem test_est_formula_branch :
    responsesAfter .est (configured 7 [(1, 5), (127, 26)] []) = some [⟨.ok, 0x40573F071E062D49⟩] := by
  decide +kernel

/-- V-Q2: the widest count. -/
theorem test_cnt_widest : responsesAfter .cnt (configured 16 [] []) = some [⟨.ok, 0x10000⟩] := by decide

/-- V-Q9. -/
theorem test_cnt_unconfigured : responsesAfter .cnt State.reset = some [⟨.notConfigured, 0⟩] := by decide

/-- V-Q8: the last cell at `p = 16`. -/
theorem test_rdreg_last_cell :
    responsesAfter (.rdreg 65535) (configured 16 [(65535, 17)] []) = some [⟨.ok, 0x11⟩] := by decide

/-- V-X11: the first index past the end at `p = 4`. -/
theorem test_rdreg_bad_index :
    responsesAfter (.rdreg 16) (configured 4 [(10, 2)] []) = some [⟨.badIndex, 0⟩] := by decide

/-- V-X6: decoding is checked before the configuration. -/
theorem test_illegal_before_unconfigured :
    stepResult { State.reset with inputs := [.command 0x0300000001] } =
      some ([⟨.illegalCmd, 0⟩], .unconfigured) := by decide

/-- P4, step 23: reset makes a configured block unconfigured and gives no response. -/
theorem test_reset_input :
    stepResult (configured 5 [(3, 2)] [.reset]) = some ([], .unconfigured) := by decide

/-- V-E4, the intermediate step: `alpha64(128)`. -/
theorem test_alpha_formula : bits64 (alpha64 128) = 0x3FE6E37EF20B947A := by decide +kernel

/-- V-B10: the two fields of a hash at `p = 10`. -/
theorem test_index_remainder :
    index 0x12345678 10 = 72 ∧ (remainder 0x12345678 10).toNat = 0x345678 := by decide

/-! ### Witnesses: states and operands that meet the hypotheses of the statements -/

theorem witness_encodeOfDecode : ∃ w i, decode w = .ok i := ⟨0x050000FFFF, .rdreg 65535, rfl⟩

theorem witness_illegalWordsAnswered :
    ∀ w ∈ [(0x0000000000 : CmdWord), 0x0600000000, 0x0300000001, 0x0480000000, 0x0500010000],
      (∀ r ∈ opcodeTable, r.selects w = false) ∧ ∃ s : State, s.inputs = [.command w] := by
  intro w hw
  refine ⟨?_, { State.reset with inputs := [.command w] }, rfl⟩
  simp only [List.mem_cons, List.not_mem_nil, or_false] at hw
  rcases hw with rfl | rfl | rfl | rfl | rfl <;> decide

theorem witness_assemblerNeverTruncates :
    (AsmLine.assemble (.init 4294967295)).isSome ∧ (AsmLine.assemble (.add 4294967295)).isSome ∧
      (AsmLine.assemble (.rdreg 65535)).isSome ∧ (AsmLine.assemble (.word 1099511627775)).isSome := by decide

theorem witness_pseudoInstructionsExpand : ∃ hash32 : String → Hash, hash32 "moros" = 2766284370 :=
  ⟨fun _ => 2766284370, rfl⟩

theorem witness_commandWord : ∃ (s : State) (w : CmdWord) (rest : List HostInput) (i : Instr),
    s.inputs = .command w :: rest ∧ decode w = .ok i :=
  ⟨configured 4 [] [.command 0x0400000000, .reset], 0x0400000000, [.reset], .cnt, rfl, rfl⟩

theorem witness_nothingIssued : State.reset.inputs = [] := rfl

theorem witness_resetUnconfigures :
    (configured 4 [] [.reset]).inputs = [.reset] ∧
      ∃ t, step (configured 4 [] [.reset]) = .next t ∧ (configured 4 [] [.reset]).cfg = 1 ∧ t.cfg = 0 :=
  ⟨rfl, _, rfl, rfl, rfl⟩

theorem witness_precisionInRange : ∀ v ∈ [(4 : BitVec 32), 16], 4 ≤ v.toNat ∧ v.toNat ≤ 16 := by simp

theorem witness_precisionOutOfRange :
    ∀ v ∈ [(3 : BitVec 32), 17, 0, 4294967295], v.toNat < 4 ∨ 16 < v.toNat := by simp

theorem witness_cfgWritten_reset :
    ∃ s t, step s = .next t ∧ s.inputs = [.reset] := ⟨configured 4 [] [.reset], _, rfl, rfl⟩

theorem witness_cfgWritten_init :
    ∃ s t, step s = .next t ∧ s.inputs = [.command 0x0100000010] ∧
      decode 0x0100000010 = .ok (.init 16) ∧ 4 ≤ (16 : BitVec 32).toNat ∧ (16 : BitVec 32).toNat ≤ 16 :=
  ⟨{ State.reset with inputs := [.command 0x0100000010] }, _, rfl, rfl, rfl, by decide, by decide⟩

/-- A step whose input is a refused `INIT`: neither a reset nor a successful construction. -/
theorem witness_cfgWritten_other :
    ∃ s t, step s = .next t ∧ (∀ rest, s.inputs ≠ .reset :: rest) ∧
      ∀ w rest v, s.inputs = .command w :: rest → decode w = .ok (.init v) → v.toNat < 4 ∨ 16 < v.toNat := by
  refine ⟨configured 4 [] [.command 0x0100000011], _, rfl, ?_, ?_⟩
  · intro rest h
    cases h
  · intro w rest v hs hd
    cases hs
    cases hd
    decide

theorem witness_overflowNeverProduced :
    ∃ (s t : State) (r : Response), step s = .next t ∧ t.responses = s.responses ++ [r] :=
  ⟨{ State.reset with inputs := [.command 0x0100000028] }, _, _, rfl, rfl⟩

theorem witness_unconfigured : State.reset.block = .unconfigured := rfl

theorem witness_canonicalFile : RegFile.wf [(0, 29), (15, 1)] := by decide

/-- A hash whose rank (3) is greater than what its cell holds (2), and one that ties. -/
theorem witness_addChangesCell :
    (∃ t, exec (.add 0xA0000004) (configured 4 [(10, 2)] []) = .next t) ∧ rank 0xA0000004 4 = 3 ∧
      rank 0xA4E22652 4 ≤ (RegFile.read [(10, 2)] (index 0xA4E22652 4)).toNat ∧
      RegFile.wf [(10, 2)] :=
  ⟨⟨_, rfl⟩, by decide, by decide, by decide⟩

theorem witness_addIsIdempotent :
    ∃ t u, execAll [.add 0xA4E22652, .init 99, .cnt, .add 0] (configured 4 [] []) = .next t ∧
      exec (.add 0xA4E22652) t = .next u ∧
      ∀ v, Instr.init v ∈ [Instr.init 99, .cnt, .add 0] → v.toNat < 4 ∨ 16 < v.toNat := by
  refine ⟨_, _, rfl, rfl, ?_⟩
  intro v hv
  simp only [List.mem_cons, Instr.init.injEq, reduceCtorEq, List.not_mem_nil, or_false] at hv
  subst hv
  decide

theorem witness_addsCommute :
    ∃ t u, execAll [.add 0xF8000000, .add 0x00000004] (configured 5 [] []) = .next t ∧
      execAll [.add 0x00000004, .add 0xF8000000] (configured 5 [] []) = .next u :=
  ⟨_, _, rfl, rfl⟩

theorem witness_storedPrecision : ∀ p ∈ [(4 : Precision), 16], 4 ≤ p.toNat ∧ p.toNat ≤ 16 := by decide

theorem witness_ctz : (0x8000000 : BitVec 28) ≠ 0 ∧ 1 ≤ 28 := by decide

theorem witness_clz : (0x8000000 : BitVec 28).getLsbD 27 = true ∧
    ∀ j, 27 < j → (0x8000000 : BitVec 28).getLsbD j = false :=
  ⟨by decide, fun j hj => BitVec.getLsbD_of_ge _ j (by omega)⟩

theorem witness_rank : 1 ≤ 1 ∧ 1 ≤ 32 - (16 : Precision).toNat ∧ 16 ≤ 32 - (16 : Precision).toNat := by decide

theorem witness_roundingIsToNearestEven :
    ∀ q ∈ [(1 : ℚ), 1 + 1 / 2 ^ 53, 1 + 3 / 2 ^ 53, 1 + 1 / 2 ^ 54],
      (2 : ℚ) ^ (-1022 : ℤ) ≤ q ∧ q < (2 : ℚ) ^ (1024 : ℤ) ∧ (2 : ℚ) ^ (0 : ℤ) ≤ q ∧
        q < (2 : ℚ) ^ ((0 : ℤ) + 1) := by
  decide +kernel

theorem witness_roundingIsNearest : (0 : ℚ) < 1 / 3 ∧ (2 : ℤ) ^ 52 ≤ 2 ^ 53 - 1 ∧ (2 : ℤ) ^ 53 - 1 < 2 ^ 53 := by
  norm_num

theorem witness_roundingIsMonotone : (0 : ℚ) < 1 / 3 ∧ (1 / 3 : ℚ) ≤ 2 / 3 := by norm_num

theorem witness_bitPatternFields :
    ∀ x ∈ [((2 : ℤ) ^ 52, (-1022 : ℤ)), (2 ^ 53 - 1, 1023)],
      2 ^ 52 ≤ x.1 ∧ x.1 < 2 ^ 53 ∧ -1022 ≤ x.2 ∧ x.2 ≤ 1023 := by
  decide

theorem witness_alphaBranches :
    31 < 32 ∧ (32 ≤ 32 ∧ 32 < 64) ∧ (64 ≤ 64 ∧ 64 < 128) ∧ 128 ≤ 128 ∧ (7 ≤ 7 ∧ 16 ≤ 16) := by decide

/-- Estimators that meet the invariant, at both ends of the precision and of a cell's range. -/
theorem witness_estimatorInvariant :
    ∀ e ∈ [Estimator.mk 4 [], ⟨4, [(0, 29), (15, 1)]⟩, ⟨16, [(0, 1), (65535, 17)]⟩], e.Inv := by decide

theorem witness_binarySumOrder :
    (Estimator.cells ⟨4, [(10, 2)]⟩).reverse.Perm (Estimator.cells ⟨4, [(10, 2)]⟩) :=
  List.reverse_perm _

/-- Every cell at its ceiling. -/
def fullEstimator : Estimator := ⟨4, (List.range 16).map fun i => (i, 29)⟩

theorem witness_estimateRange :
    fullEstimator.Inv ∧
      ∀ i, i < fullEstimator.m → (RegFile.read fullEstimator.regs i).toNat = 33 - fullEstimator.p.toNat := by
  decide

theorem witness_estimateNeverDecreases :
    ∃ t, execAll [.add 0, .init 99] (configured 4 [(10, 2)] []) = .next t ∧
      Estimator.Inv ⟨4, [(10, 2)]⟩ ∧
      ∀ v, Instr.init v ∈ [Instr.add 0, .init 99] → v.toNat < 4 ∨ 16 < v.toNat := by
  refine ⟨_, rfl, by decide, ?_⟩
  intro v hv
  simp only [List.mem_cons, Instr.init.injEq, reduceCtorEq, List.not_mem_nil, or_false, false_or] at hv
  subst hv
  decide

/-- V-E16: `p = 4` with cell 3, and with cell 12, at 29. -/
theorem witness_estimateDependsOnMultiset :
    Estimator.Inv ⟨4, [(3, 29)]⟩ ∧ Estimator.Inv ⟨4, [(12, 29)]⟩ ∧
      (Estimator.cells ⟨4, [(3, 29)]⟩).Perm (Estimator.cells ⟨4, [(12, 29)]⟩) := by
  decide

theorem witness_rdregClauses :
    2 ^ (4 : Precision).toNat ≤ (16 : BitVec 16).toNat ∧ (15 : BitVec 16).toNat < 2 ^ (4 : Precision).toNat ∧
      (65535 : BitVec 16).toNat < 2 ^ (16 : Precision).toNat := by decide

/-- Between two reads of cell 15, an `ADD` to another cell. -/
theorem witness_rdregUnchanged :
    (configured 4 [(15, 3)] []).block = .configured ⟨4, [(15, 3)]⟩ ∧ index 0 4 ≠ (15 : BitVec 16).toNat ∧
      ∃ t, exec (.add 0) (configured 4 [(15, 3)] []) = .next t :=
  ⟨rfl, by decide, _, rfl⟩

theorem witness_readingTheWholeVector :
    ∀ i ∈ [(15 : BitVec 16), 0, 15], i.toNat < 2 ^ (4 : Precision).toNat := by simp

theorem witness_readCommandsAreRepeatable :
    ∃ u, execAll [.rdreg 3, .cnt, .est, .rdreg 3] (configured 4 [(3, 5)] []) = .next u ∧
      ∀ j ∈ [Instr.rdreg 3, .cnt, .est], j = .est ∨ j = .cnt ∨ ∃ idx, j = .rdreg idx := by
  refine ⟨_, rfl, ?_⟩
  intro j hj
  simp only [List.mem_cons, List.not_mem_nil, or_false] at hj
  rcases hj with rfl | rfl | rfl
  · exact .inr (.inr ⟨3, rfl⟩)
  · exact .inr (.inl rfl)
  · exact .inl rfl

theorem witness_unconfiguredCommandsRefused :
    (∀ v, Instr.est ≠ .init v) ∧
      ∃ t r, exec (.init 0) State.reset = .next t ∧ t.responses = State.reset.responses ++ [r] :=
  ⟨fun _ h => (by cases h), _, _, rfl, rfl⟩

theorem witness_errorsArePrecise :
    ∃ (s t : State) (r : Response), s.inputs = [.command 0x0500000010] ∧ step s = .next t ∧
      t.responses = s.responses ++ [r] ∧ r.status.code ≠ 0 :=
  ⟨configured 4 [(10, 2)] [.command 0x0500000010], _, ⟨.badIndex, 0⟩, rfl, rfl, rfl, by decide⟩

theorem witness_checkOrder :
    (∃ err, decode 0x0500011170 = .error err) ∧ decode 0x0100000028 = .ok (.init 40) ∧
      decode 0x0100000004 = .ok (.init 4) ∧ decode 0x0500000010 = .ok (.rdreg 16) ∧
      decode 0x0300000000 = .ok .est :=
  ⟨⟨_, rfl⟩, rfl, rfl, rfl, rfl⟩

theorem witness_stepKeepsInvariant :
    ∃ s t, State.Inv s ∧ step s = .next t ∧ s.inputs = [.command 0x0200000000] :=
  ⟨configured 4 [(10, 2)] [.command 0x0200000000], _, (by decide : Estimator.Inv ⟨4, [(10, 2)]⟩), rfl, rfl⟩

/-- A reachable configured state: power-up, `INIT 4` issued, one step. -/
theorem witness_reachable : ∃ s e, Reachable s ∧ s.block = .configured e :=
  ⟨_, _, Reachable.step _ _ (Reachable.issue _ [.command 0x0100000004] Reachable.reset) rfl, rfl⟩

theorem witness_cellsNeverDecrease :
    ∃ (s t : State), step s = .next t ∧ (∀ rest, s.inputs ≠ .reset :: rest) ∧
      (∀ w rest v, s.inputs = .command w :: rest → decode w = .ok (.init v) →
        v.toNat < 4 ∨ 16 < v.toNat) ∧
      s.block = .configured ⟨4, [(10, 2)]⟩ ∧ RegFile.wf [(10, 2)] := by
  refine ⟨configured 4 [(10, 2)] [.command 0x0200000000], _, rfl, ?_, ?_, rfl, by decide⟩
  · intro rest h
    cases h
  · intro w rest v hs hd
    cases hs
    cases hd

theorem witness_commandFrames :
    (∃ t, exec .est (configured 4 [] []) = .next t) ∧ (∃ t, exec .cnt (configured 4 [] []) = .next t) ∧
      (∃ t, exec (.rdreg 15) (configured 4 [] []) = .next t) ∧
      (∃ t, exec (.init 17) (configured 4 [] []) = .next t) ∧ (∃ t, exec (.add 0) State.reset = .next t) ∧
      (∃ t, exec (.add 0) (configured 4 [] []) = .next t) :=
  ⟨⟨_, rfl⟩, ⟨_, rfl⟩, ⟨_, rfl⟩, ⟨_, rfl⟩, ⟨_, rfl⟩, ⟨_, rfl⟩⟩

/-- A configured block with a canonical list, and one whose list is not canonical before its `INIT`. -/
theorem witness_registerListStaysCanonical :
    (configured 4 [(10, 2)] []).block.Canonical ∧
      (∃ t, exec (.add 0) (configured 4 [(10, 2)] []) = .next t) ∧
      (∃ t, step (configured 4 [(10, 2)] [.command 0x0200000000]) = .next t) ∧
      ∃ t, exec (.init 16) (configured 4 [(3, 0)] []) = .next t := by
  refine ⟨?_, ⟨_, rfl⟩, ⟨_, rfl⟩, ⟨_, rfl⟩⟩
  intro e he
  cases he
  decide

/-- The invariant's hypotheses of the clause on partial sums, at its last index. -/
theorem witness_partialSums : Estimator.Inv ⟨4, [(10, 2)]⟩ ∧ 1 ≤ 16 ∧ 16 ≤ Estimator.m ⟨4, [(10, 2)]⟩ := by decide

end Sys2Proof.Tests
end

section
/-! The step on a command word, through the command port's two choices (the oldest input, then its decoding). -/

namespace Sys2Proof.Machine

/-- R11: the oldest input is taken off the port, and when it is a command word that word is performed. -/
theorem step_of_command {s : State} {w : CmdWord} {rest : List HostInput}
    (h : s.inputs = .command w :: rest) : step s = performWord w { s with inputs := rest } := by
  simp only [step, performNext, h, performInput]

/-- R66: a legal word is performed as the command it encodes. -/
theorem performWord_of_decode_ok {w : CmdWord} {i : Instr} (h : decode w = .ok i) (s : State) :
    performWord w s = exec i s := by
  simp only [performWord, h]

/-- Settles O9: the step performs the word, and the word performs its decoded command. -/
theorem stepRunsDecodedCommand : Obligations.StepRunsDecodedCommand := by
  intro s w rest i hin hdec
  calc step s = performWord w { s with inputs := rest } := step_of_command hin
    _ = exec i { s with inputs := rest } := performWord_of_decode_ok hdec _

end Sys2Proof.Machine
end

section
/-! What a command and a step do to each part of the state: the ports (`00_scope.md` R11, `60_exceptions.md` R150)
and the block. The statements about invariants and frames are read off these lemmas. -/

namespace Sys2Proof.Machine

/-! ### The ports -/

/-- `t` is `s` after one command has been answered: nothing more was taken from the host's inputs, and exactly one
response was given. -/
def State.Answered (s t : State) : Prop := t.inputs = s.inputs ∧ ∃ r, t.responses = s.responses ++ [r]

theorem answered_respond (st : Status) (d : Data) (s : State) : s.Answered (s.respond st d) := ⟨rfl, _, rfl⟩

theorem answered_raise (c : ErrorCause) (s : State) : s.Answered (s.raise c) := ⟨rfl, _, rfl⟩

theorem answered_withEstimator {s : State} {k : Estimator → State} (hk : ∀ e, s.Answered (k e)) :
    s.Answered (s.withEstimator k) := by
  cases hb : s.block with
  | unconfigured => exact withEstimator_unconfigured hb k ▸ answered_raise _ s
  | configured e => exact withEstimator_configured hb k ▸ hk e

theorem answered_constructChecked (v : BitVec 32) (s : State) : s.Answered (constructChecked v s) := by
  unfold constructChecked
  split
  · exact answered_raise _ s
  · exact ⟨rfl, _, rfl⟩

/-- Every command completes, and is answered once (R11, R62). -/
theorem exec_answers (i : Instr) (s : State) : ∃ t, exec i s = .next t ∧ s.Answered t := by
  cases i with
  | init v =>
    simp only [exec, execInit]
    split
    · exact ⟨_, rfl, answered_raise _ s⟩
    · exact ⟨_, rfl, answered_constructChecked v s⟩
  | add h => exact ⟨_, rfl, answered_withEstimator fun _ => ⟨rfl, _, rfl⟩⟩
  | est => exact ⟨_, rfl, answered_withEstimator fun _ => answered_respond _ _ s⟩
  | cnt => exact ⟨_, rfl, answered_withEstimator fun _ => answered_respond _ _ s⟩
  | rdreg idx =>
    refine ⟨_, rfl, answered_withEstimator fun e => ?_⟩
    split
    · exact answered_raise _ s
    · exact answered_respond _ _ s

theorem answered_of_exec {i : Instr} {s t : State} (h : exec i s = .next t) : s.Answered t := by
  obtain ⟨u, hu, ha⟩ := exec_answers i s
  rw [h] at hu
  cases hu
  exact ha

theorem performWord_of_decode_error {w : CmdWord} {err : DecodeError} (h : decode w = .error err) (s : State) :
    performWord w s = .next (s.raise .illegalCmd) := by
  simp only [performWord, h]

/-- Every command word, legal or not, completes and is answered once (R66, R177). -/
theorem performWord_answers (w : CmdWord) (s : State) : ∃ t, performWord w s = .next t ∧ s.Answered t := by
  cases hd : decode w with
  | error err => exact ⟨_, performWord_of_decode_error hd s, answered_raise _ s⟩
  | ok i => exact performWord_of_decode_ok hd s ▸ exec_answers i s

/-! ### The configuration bit -/

theorem cfg_of_unconfigured {s : State} (h : s.block = .unconfigured) : s.cfg = 0 := by
  simp [State.cfg, h, Block.cfg]

theorem cfg_of_configured {s : State} {e : Estimator} (h : s.block = .configured e) : s.cfg = 1 := by
  simp [State.cfg, h, Block.cfg]

theorem cfg_congr {s t : State} (h : t.block = s.block) : t.cfg = s.cfg := congrArg Block.cfg h

theorem unconfigured_of_cfg {s : State} (h : s.cfg = 0) : s.block = .unconfigured := by
  cases hb : s.block with
  | unconfigured => rfl
  | configured e => simp [cfg_of_configured hb] at h

/-! ### Equations of the commands that change or refuse -/

/-- R100: `INIT` with a precision in range constructs an estimator, whatever the block held. -/
theorem exec_init_inRange {v : BitVec 32} (hlo : Config.pMin ≤ v.toNat) (hhi : v.toNat ≤ Config.pMax) (s : State) :
    exec (.init v) s = .next ((s.construct (v.setWidth 5)).respond .ok 0) := by
  simp [exec, execInit, constructChecked_inRange hhi, Nat.not_lt.mpr hlo, Nat.not_lt.mpr hhi]

/-- R103: `INIT` with a precision out of range is refused. -/
theorem exec_init_outOfRange {v : BitVec 32} (hv : v.toNat < Config.pMin ∨ Config.pMax < v.toNat) (s : State) :
    exec (.init v) s = .next (s.raise (.invalidPrecision v)) := by
  simp only [exec, execInit, hv, if_true]

/-- R155: while the block is unconfigured every command but `INIT` is refused. -/
theorem exec_unconfigured {i : Instr} {s : State} (hi : ∀ v, i ≠ .init v) (hs : s.block = .unconfigured) :
    exec i s = .next (s.raise .notConfigured) := by
  cases i with
  | init v => exact absurd rfl (hi v)
  | add h => exact congrArg Host.Outcome.next (withEstimator_unconfigured hs _)
  | est => exact congrArg Host.Outcome.next (withEstimator_unconfigured hs _)
  | cnt => exact congrArg Host.Outcome.next (withEstimator_unconfigured hs _)
  | rdreg idx => exact congrArg Host.Outcome.next (withEstimator_unconfigured hs _)

/-- R110: `ADD` on a configured block. -/
theorem exec_add_configured {s : State} {e : Estimator} (hs : s.block = .configured e) (h : Hash) :
    exec (.add h) s = .next ((s.setEstimator (e.addHash h)).respond .ok 0) :=
  congrArg Host.Outcome.next (withEstimator_configured hs _)

/-- The stored precision is the operand of `INIT` when that is in range (R100). -/
theorem toNat_setWidth_precision {v : BitVec 32} (hv : v.toNat ≤ Config.pMax) :
    (v.setWidth 5 : Precision).toNat = v.toNat := by
  have hlt : v.toNat < 2 ^ 5 := Nat.lt_of_le_of_lt hv (by decide)
  rw [BitVec.toNat_setWidth, Nat.mod_eq_of_lt hlt]

theorem step_of_reset {s : State} {rest : List HostInput} (h : s.inputs = .reset :: rest) :
    step s = .next ({ s with inputs := rest } : State).applyReset := by
  simp only [step, performNext, h, performInput]

/-! ### The block after a step -/

/-- What a step does to the block, with the input that did it: nothing, a reset, a construction, or the update
of one cell. -/
theorem step_block_cases {s t : State} (h : step s = .next t) :
    t.block = s.block ∨
    (∃ rest, s.inputs = .reset :: rest ∧ t.block = .unconfigured) ∨
    (∃ w rest v, s.inputs = .command w :: rest ∧ decode w = .ok (.init v) ∧ Config.pMin ≤ v.toNat ∧
      v.toNat ≤ Config.pMax ∧ t.block = .configured { p := v.setWidth 5, regs := RegFile.cleared }) ∨
    (∃ hash e, s.block = .configured e ∧ t.block = .configured (e.addHash hash)) := by
  rcases step_cases h with ⟨-, rfl⟩ | ⟨rest, hin, rfl⟩ | ⟨_, _, _, -, -, rfl⟩ | ⟨w, i, rest, hin, hd, hx⟩
  · exact .inl rfl
  · exact .inr (.inl ⟨rest, hin, rfl⟩)
  · exact .inl rfl
  · rcases exec_block_cases hx with hb | ⟨v, rfl, hlo, hhi, hb⟩ | ⟨hash, e, -, hs, hb⟩
    · exact .inl hb
    · exact .inr (.inr (.inl ⟨w, rest, v, hin, hd, hlo, hhi, hb⟩))
    · exact .inr (.inr (.inr ⟨hash, e, hs, hb⟩))

/-- A step that is neither a reset nor a successful `INIT` leaves the block as it is or adds one hash to it. -/
theorem step_block_cases_of_kept {s t : State} (h : step s = .next t)
    (hnoReset : ∀ rest, s.inputs ≠ .reset :: rest)
    (hnoInit : ∀ w rest v, s.inputs = .command w :: rest → decode w = .ok (.init v) →
      v.toNat < 4 ∨ 16 < v.toNat) :
    t.block = s.block ∨ ∃ hash e, s.block = .configured e ∧ t.block = .configured (e.addHash hash) := by
  rcases step_block_cases h with hb | ⟨rest, hin, -⟩ | ⟨w, rest, v, hin, hd, hlo, hhi, -⟩ | hadd
  · exact .inl hb
  · exact absurd hin (hnoReset rest)
  · have hout := hnoInit w rest v hin hd
    simp only [Config.pMin, Config.pMax] at hlo hhi
    omega
  · exact .inr hadd

end Sys2Proof.Machine
end

section
/-! The estimator: its cells, the range of a hash's index and rank, and what adding a hash does to one cell. -/

namespace Sys2Proof.Machine

/-! ### The cells -/

@[simp] theorem length_cells (e : Estimator) : e.cells.length = 2 ^ e.p.toNat := by
  simp [Estimator.cells, Estimator.m, Config.regCount]

theorem cells_cleared (p : Precision) :
    Estimator.cells ⟨p, RegFile.cleared⟩ = List.replicate (2 ^ p.toNat) 0 :=
  List.eq_replicate_iff.mpr ⟨length_cells _, fun r hr => by
    obtain ⟨i, -, rfl⟩ := List.mem_map.mp hr
    exact read_cleared i⟩

theorem cleared_inv {p : Precision} (hlo : Config.pMin ≤ p.toNat) (hhi : p.toNat ≤ Config.pMax) :
    Estimator.Inv ⟨p, RegFile.cleared⟩ :=
  ⟨hlo, hhi, cleared_wf, fun _ hc => absurd hc List.not_mem_nil⟩

/-! ### Index and rank -/

/-- R86: an index has `p` bits. -/
theorem index_lt (h : Hash) (p : Precision) : index h p < Config.regCount p.toNat := by
  have hp : p.toNat ≤ 32 := by omega
  rw [index, topBits, indexWidth, Config.regCount, Nat.shiftRight_eq_div_pow, Nat.div_lt_iff_lt_mul (by positivity),
    ← pow_add, Nat.add_sub_cancel' hp]
  exact h.isLt

theorem ctz_le {w : Nat} (x : BitVec w) : ctz x ≤ w := by
  unfold ctz
  cases hf : (List.range w).find? (fun k => x.getLsbD k) with
  | none => exact le_refl w
  | some k => exact (List.mem_range.mp (List.mem_of_find?_eq_some hf)).le

/-- R87: a rank is at most `33 - p`. -/
theorem rank_le (h : Hash) (p : Precision) : rank h p ≤ Config.rankMax p.toNat := by
  have hc : ctz (remainder h p) ≤ 32 - p.toNat := ctz_le _
  simp only [rank, Config.rankMax]
  omega

/-- A rank fits in a cell (R87, R89). -/
theorem toNat_rankByte (h : Hash) (p : Precision) : (BitVec.ofNat 8 (rank h p)).toNat = rank h p := by
  have hr := rank_le h p
  simp only [Config.rankMax] at hr
  rw [BitVec.toNat_ofNat, Nat.mod_eq_of_lt (by omega)]

theorem le_maxByte_left (a b : Byte) : a ≤ maxByte a b := by
  unfold maxByte
  split
  · exact BitVec.le_refl a
  · rename_i hba
    exact BitVec.le_of_lt (BitVec.not_le.mp hba)

theorem maxByte_toNat_le {a b : Byte} {n : Nat} (ha : a.toNat ≤ n) (hb : b.toNat ≤ n) :
    (maxByte a b).toNat ≤ n := by
  unfold maxByte
  split
  · exact ha
  · exact hb

/-! ### The invariant, cell by cell -/

/-- No cell of an estimator that meets the invariant is above `33 - p` (R32). -/
theorem read_le_rankMax {e : Estimator} (he : e.Inv) (i : Nat) :
    (RegFile.read e.regs i).toNat ≤ Config.rankMax e.p.toNat := by
  obtain ⟨-, -, -, hcells⟩ := he
  rcases read_cases e.regs i with h0 | hmem
  · simp [h0, RegFile.unlisted]
  · exact (hcells _ hmem).2

/-- An estimator that meets the invariant holds nothing beyond its `2^p` cells (R22, R30). -/
theorem read_beyond {e : Estimator} (he : e.Inv) {i : Nat} (hi : 2 ^ e.p.toNat ≤ i) :
    RegFile.read e.regs i = 0 := by
  obtain ⟨-, -, -, hcells⟩ := he
  rcases read_cases e.regs i with h0 | hmem
  · exact h0
  · exact absurd (hcells _ hmem).1 (Nat.not_lt.mpr hi)

theorem mem_cells_le_rankMax {e : Estimator} (he : e.Inv) {r : Byte} (hr : r ∈ e.cells) :
    r.toNat ≤ Config.rankMax e.p.toNat := by
  obtain ⟨i, -, rfl⟩ := List.mem_map.mp hr
  exact read_le_rankMax he i

/-! ### Adding a hash -/

/-- R110, R113: adding a hash lowers no cell. -/
theorem read_le_read_addHash {e : Estimator} (he : RegFile.wf e.regs) (h : Hash) (i : Nat) :
    RegFile.read e.regs i ≤ RegFile.read (e.addHash h).regs i := by
  by_cases hi : i = index h e.p
  · subst hi
    rw [Estimator.addHash, writeCell_regs, read_write_self he]
    exact le_maxByte_left _ _
  · rw [Estimator.addHash, writeCell_regs, read_write_other _ _ hi]
    exact BitVec.le_refl _

/-- R110: every other cell stays as it is. -/
theorem read_addHash_other (e : Estimator) (h : Hash) {j : Nat} (hj : j ≠ index h e.p) :
    RegFile.read (e.addHash h).regs j = RegFile.read e.regs j :=
  read_write_other _ _ hj

/-- `ADD` keeps the invariant: the index it writes has `p` bits and the rank is at most `33 - p`. -/
theorem addHash_inv {e : Estimator} (he : e.Inv) (h : Hash) : (e.addHash h).Inv := by
  have hread := read_le_rankMax he (index h e.p)
  obtain ⟨hlo, hhi, hwf, hcells⟩ := he
  refine ⟨hlo, hhi, write_wf hwf _ _, fun c hc => ?_⟩
  rcases mem_write_cases hc with rfl | hc
  · exact ⟨index_lt h e.p, maxByte_toNat_le hread ((toNat_rankByte h e.p).trans_le (rank_le h e.p))⟩
  · exact hcells c hc

end Sys2Proof.Machine
end

section
/-! The statements of `10_state.md`: what every step keeps, and what each command leaves unchanged. -/

namespace Sys2Proof.Machine

/-- Settles O52: an unconfigured block meets the invariant. -/
theorem resetMeetsInvariant : Obligations.ResetMeetsInvariant := trivial

theorem inv_of_configured {s : State} {e : Estimator} (h : s.block = .configured e) : s.Inv ↔ e.Inv := by
  rw [State.Inv, h, Block.Inv]

/-- Settles O53: a construction establishes the estimator's invariant, and adding a hash keeps it. -/
theorem stepKeepsInvariant : Obligations.StepKeepsInvariant := by
  intro s t hs hstep
  rcases step_block_cases hstep with hb | ⟨_, _, hb⟩ | ⟨_, _, v, _, _, hlo, hhi, hb⟩ | ⟨hash, e, he, hb⟩
  · rwa [State.Inv, hb]
  · rw [State.Inv, hb]
    trivial
  · rw [inv_of_configured hb]
    have hp := toNat_setWidth_precision hhi
    exact cleared_inv (hp ▸ hlo) (hp ▸ hhi)
  · rw [inv_of_configured hb]
    exact addHash_inv ((inv_of_configured he).mp hs) hash

/-- Every reachable state meets the invariant: reset does, issuing leaves the block alone, and a step keeps it. -/
theorem inv_of_reachable {s : State} (h : Reachable s) : s.Inv := by
  induction h with
  | reset => exact resetMeetsInvariant
  | issue s ins _ ih => exact ih
  | step s t _ hstep ih => exact stepKeepsInvariant s t ih hstep

/-- A byte below 32 has its three high bits 0. -/
theorem extractHigh_eq_zero {r : Byte} (h : r.toNat < 32) : r.extractLsb' 5 3 = 0 := by
  apply BitVec.eq_of_toNat_eq
  simp [BitVec.extractLsb'_toNat, Nat.shiftRight_eq_div_pow, Nat.div_eq_of_lt h]

/-- Settles O54: the invariant of the reachable states, read off for each cell. -/
theorem reachableStatesMeetInvariant : Obligations.ReachableStatesMeetInvariant := by
  intro s e hs hb
  have he : e.Inv := (inv_of_configured hb).mp (inv_of_reachable hs)
  have hlo : 4 ≤ e.p.toNat := he.1
  refine ⟨he, hlo, he.2.1, length_cells e, fun i hi => read_beyond he hi, fun r hr => ?_⟩
  have hle : r.toNat ≤ 33 - e.p.toNat := mem_cells_le_rankMax he hr
  refine ⟨?_, by omega, extractHigh_eq_zero (by omega)⟩
  rcases Nat.eq_zero_or_pos r.toNat with h0 | hpos
  · exact .inl (BitVec.eq_of_toNat_eq h0)
  · exact .inr ⟨hpos, hle⟩

/-- Settles O55: only an `ADD` is left to change a cell, and it changes only the cell at its hash's index. -/
theorem cellsNeverDecrease : Obligations.CellsNeverDecrease := by
  intro s t e hs hwf hstep hnoReset hnoInit
  rcases step_block_cases_of_kept hstep hnoReset hnoInit with hb | ⟨hash, e₀, he₀, hb⟩
  · exact ⟨e, hb.trans hs, rfl, fun _ => BitVec.le_refl _, fun _ _ hi => absurd rfl hi⟩
  · obtain rfl : e₀ = e := Block.configured.inj (he₀.symm.trans hs)
    have changed {i : Nat} (hi : RegFile.read (e₀.addHash hash).regs i ≠ RegFile.read e₀.regs i) :
        i = index hash e₀.p := by
      by_contra hne
      exact hi (read_addHash_other e₀ hash hne)
    exact ⟨e₀.addHash hash, hb, rfl, read_le_read_addHash hwf hash,
      fun _ _ hi hj => (changed hi).trans (changed hj).symm⟩

/-- Settles O56: one response and no input taken for every command; the block by what a command can do to it. -/
theorem commandFrames : Obligations.CommandFrames := by
  intro i s t ht
  obtain ⟨hin, hresp⟩ := answered_of_exec ht
  refine ⟨hin, hresp, ?_, ?_⟩
  · intro hi
    rcases exec_block_cases ht with hb | ⟨v, rfl, hlo, hhi, -⟩ | ⟨hash, e, rfl, hs, -⟩
    · exact hb
    · simp only [Config.pMin, Config.pMax] at hlo hhi
      simp only [reduceCtorEq, Instr.init.injEq, exists_false, false_and, false_or, or_false] at hi
      obtain ⟨_, rfl, hout⟩ := hi
      omega
    · simp [hs] at hi
  · rintro h e rfl hs
    rw [exec_add_configured hs] at ht
    cases ht
    exact ⟨e.addHash h, rfl, rfl, fun _ hj => read_addHash_other e h hj⟩

/-- Settles O13: the reset step leaves no estimator, and `INIT` in range constructs one with every cell 0. -/
theorem resetValues : Obligations.ResetValues := by
  refine ⟨⟨rfl, nofun⟩, ?_, ?_⟩
  · intro s t rest hin hstep
    rw [step_of_reset hin] at hstep
    cases hstep
    exact ⟨rfl, nofun⟩
  · intro v s _ hlo hhi
    have hp := toNat_setWidth_precision hhi
    exact ⟨_, _, exec_init_inRange hlo hhi s, rfl, hp, by rw [cells_cleared, hp]⟩

/-- Settles O15: the block's four cases under a step, and the refusal of every command but `INIT` while
unconfigured. -/
theorem cfgWrittenOnlyByInitAndReset : Obligations.CfgWrittenOnlyByInitAndReset := by
  refine ⟨fun i s hi hcfg => exec_unconfigured hi (unconfigured_of_cfg hcfg), fun s t hstep => ⟨?_, ?_, ?_⟩⟩
  · intro rest hin
    rw [step_of_reset hin] at hstep
    cases hstep
    rfl
  · intro w rest v hin hd hlo hhi
    rw [step_of_command hin, performWord_of_decode_ok hd, exec_init_inRange hlo hhi] at hstep
    cases hstep
    rfl
  · intro hnoReset hnoInit
    rcases step_block_cases_of_kept hstep hnoReset hnoInit with hb | ⟨_, _, hs, hb⟩
    · exact cfg_congr hb
    · rw [cfg_of_configured hs, cfg_of_configured hb]

end Sys2Proof.Machine
end

section
/-! A program the host issues (`10_state.md` R27): commands do not look at the inputs still to come, so performing
the issued words step by step is performing them one after another. -/

namespace Sys2Proof

/-- Decoding the encoded word of a command gives the command (R65). -/
theorem decode_encode (i : Instr) : decode (encode i) = .ok i := by
  cases i with
  | init v => simp [encode, decode]
  | add h => simp [encode, decode]
  | est => simp [encode, decode, decodeNoOperand]
  | cnt => simp [encode, decode, decodeNoOperand]
  | rdreg idx =>
    have hhigh : (idx.setWidth 32).extractLsb' 16 16 = 0 := by
      ext i hi
      simp
    have hlow : (idx.setWidth 32).extractLsb' 0 16 = idx := by
      ext i hi
      simp [hi, show i < 32 by omega]
    simp [encode, decode, decodeIndex, hhigh, hlow]

end Sys2Proof

namespace Sys2Proof.Machine

/-! ### Issuing more inputs -/

@[simp] theorem issue_nil (s : State) : s.issue [] = s := by simp [State.issue]

@[simp] theorem issueProgram_nil (s : State) : s.issueProgram [] = s := issue_nil s

theorem withEstimator_issue {ins : List HostInput} {s : State} {k k' : Estimator → State}
    (hk : ∀ e, k' e = (k e).issue ins) : (s.issue ins).withEstimator k' = (s.withEstimator k).issue ins := by
  cases hb : s.block with
  | unconfigured =>
    rw [withEstimator_unconfigured (s := s.issue ins) hb, withEstimator_unconfigured hb]
    rfl
  | configured e =>
    rw [withEstimator_configured (s := s.issue ins) hb, withEstimator_configured hb]
    exact hk e

/-- A command does the same whether the host has issued more inputs or not. -/
theorem exec_issue {i : Instr} {s t : State} (ins : List HostInput) (h : exec i s = .next t) :
    exec i (s.issue ins) = .next (t.issue ins) := by
  cases i with
  | init v =>
    by_cases hv : v.toNat < Config.pMin ∨ Config.pMax < v.toNat
    · rw [exec_init_outOfRange hv] at h ⊢
      cases h
      rfl
    · obtain ⟨hlo, hhi⟩ : Config.pMin ≤ v.toNat ∧ v.toNat ≤ Config.pMax := by omega
      rw [exec_init_inRange hlo hhi] at h ⊢
      cases h
      rfl
  | add hash =>
    cases h
    exact congrArg Host.Outcome.next (withEstimator_issue fun _ => rfl)
  | est =>
    cases h
    exact congrArg Host.Outcome.next (withEstimator_issue fun _ => rfl)
  | cnt =>
    cases h
    exact congrArg Host.Outcome.next (withEstimator_issue fun _ => rfl)
  | rdreg idx =>
    cases h
    refine congrArg Host.Outcome.next (withEstimator_issue fun e => ?_)
    split <;> rfl

theorem performWord_issue {w : CmdWord} {s t : State} (ins : List HostInput) (h : performWord w s = .next t) :
    performWord w (s.issue ins) = .next (t.issue ins) := by
  cases hd : decode w with
  | error err =>
    rw [performWord_of_decode_error hd] at h ⊢
    cases h
    rfl
  | ok i =>
    rw [performWord_of_decode_ok hd] at h ⊢
    exact exec_issue ins h

/-! ### Performing a list of words -/

theorem performAll_cons {w : CmdWord} {s t : State} (h : performWord w s = .next t) (words : List CmdWord) :
    performAll (w :: words) s = performAll words t := by
  simp only [performAll, h]

/-- Words performed one after another all complete, take no further input, and are answered once each. -/
theorem performAll_answers (words : List CmdWord) (s : State) :
    ∃ t, performAll words s = .next t ∧ t.inputs = s.inputs ∧
      t.responses.length = s.responses.length + words.length := by
  induction words generalizing s with
  | nil => exact ⟨s, rfl, rfl, rfl⟩
  | cons w words ih =>
    obtain ⟨u, hu, hin, r, hresp⟩ := performWord_answers w s
    obtain ⟨t, ht, htin, hlen⟩ := ih u
    refine ⟨t, (performAll_cons hu words).trans ht, htin.trans hin, ?_⟩
    simp only [hlen, hresp, List.length_append, List.length_cons, List.length_nil]
    omega

/-- The first step on an issued program performs its first word, and leaves the rest of it issued. -/
theorem step_issueProgram_cons {w : CmdWord} {s t : State} (hs : s.inputs = []) (h : performWord w s = .next t)
    (words : List CmdWord) : step (s.issueProgram (w :: words)) = .next (t.issueProgram words) := by
  have hin : (s.issueProgram (w :: words)).inputs = .command w :: words.map .command := by
    simp [State.issueProgram, hs]
  have hrest : { s.issueProgram (w :: words) with inputs := words.map .command } = s.issueProgram words := by
    simp [State.issueProgram, State.issue, hs]
  rw [step_of_command hin, hrest]
  exact performWord_issue _ h

/-- As many steps as there are issued words perform the words. -/
theorem run_issueProgram (words : List CmdWord) {s : State} (hs : s.inputs = []) :
    Sys2Proof.core.run words.length (s.issueProgram words) = performAll words s := by
  induction words generalizing s with
  | nil => exact congrArg Host.Outcome.next (issueProgram_nil s)
  | cons w words ih =>
    obtain ⟨u, hu, hin, -⟩ := performWord_answers w s
    have hstep : Sys2Proof.core.step (s.issueProgram (w :: words)) = .next (u.issueProgram words) :=
      step_issueProgram_cons hs hu words
    have hrun : Sys2Proof.core.run (w :: words).length (s.issueProgram (w :: words)) =
        Sys2Proof.core.run words.length (u.issueProgram words) := by
      simp only [List.length_cons, Host.Core.run, hstep]
    exact hrun.trans ((ih (hin.trans hs)).trans (performAll_cons hu words).symm)

/-- The encoded words of commands are performed as the commands. -/
theorem performAll_map_encode (is : List Instr) (s : State) : performAll (is.map encode) s = execAll is s := by
  induction is generalizing s with
  | nil => rfl
  | cons i is ih =>
    obtain ⟨t, ht, -⟩ := exec_answers i s
    have hword : performWord (encode i) s = .next t := (performWord_of_decode_ok (decode_encode i) s).trans ht
    calc performAll ((i :: is).map encode) s
        = performAll (is.map encode) t := performAll_cons hword (is.map encode)
      _ = execAll is t := ih t
      _ = execAll (i :: is) s := by simp only [execAll, ht]

/-- Settles O14: the run performs the words, and performing words answers each of them. -/
theorem issuedProgramRunsInOrder : Obligations.IssuedProgramRunsInOrder := by
  refine ⟨fun s words hs => ?_, fun s is => performAll_map_encode is s⟩
  obtain ⟨t, ht, hin, hlen⟩ := performAll_answers words s
  exact ⟨t, ht, hin.trans hs, hlen, (run_issueProgram words hs).trans ht⟩

end Sys2Proof.Machine
end

section
/-! Rounding (`43_estimate.md` R121): what rounding leaves alone, and that it never crosses a power of two. -/

namespace Sys2Proof.Machine

theorem unitOf_pos (q : ℚ) : 0 < unitOf q := zpow_pos two_pos _

/-- R121: the exponent of a positive number. -/
theorem zpow_exponentOf_le {q : ℚ} (hq : 0 < q) : (2 : ℚ) ^ exponentOf q ≤ q :=
  mod_cast Int.zpow_log_le_self one_lt_two hq

theorem lt_zpow_exponentOf (q : ℚ) : q < (2 : ℚ) ^ (exponentOf q + 1) :=
  mod_cast Int.lt_zpow_succ_log_self one_lt_two q

theorem le_exponentOf_iff {q : ℚ} (hq : 0 < q) {k : ℤ} : k ≤ exponentOf q ↔ (2 : ℚ) ^ k ≤ q :=
  mod_cast (Int.zpow_le_iff_le_log one_lt_two hq).symm

/-- A power of two is a whole number of units in the last place `2^(e-52)`, if it is no smaller than that. -/
theorem zpow_div_unitOf (q : ℚ) {k : ℤ} (hk : exponentOf q - 52 ≤ k) :
    (2 : ℚ) ^ k / unitOf q = ((2 ^ (k - (exponentOf q - 52)).toNat : ℤ) : ℚ) := by
  rw [unitOf, ← zpow_sub₀ two_ne_zero, Int.cast_pow, Int.cast_ofNat, ← zpow_natCast,
    Int.toNat_of_nonneg (sub_nonneg.mpr hk)]

/-- R121: the result is one of the two multiples of the unit about `q`. -/
theorem rn64_cases (q : ℚ) :
    rn64 q = ⌊q / unitOf q⌋ * unitOf q ∨ rn64 q = (⌊q / unitOf q⌋ + 1) * unitOf q := by
  simp only [rn64]
  split
  · exact .inl rfl
  · split
    · exact .inr rfl
    · split
      · exact .inl rfl
      · exact .inr rfl

theorem floor_mul_unitOf_le_rn64 (q : ℚ) : ⌊q / unitOf q⌋ * unitOf q ≤ rn64 q := by
  have hu := unitOf_pos q
  rcases rn64_cases q with h | h <;> rw [h]
  linarith

theorem rn64_le_floor_succ_mul_unitOf (q : ℚ) : rn64 q ≤ (⌊q / unitOf q⌋ + 1) * unitOf q := by
  have hu := unitOf_pos q
  rcases rn64_cases q with h | h <;> rw [h]
  linarith

/-- A whole number of units is not rounded. -/
theorem rn64_of_div_unitOf_eq {q : ℚ} {n : ℤ} (h : q / unitOf q = n) : rn64 q = q := by
  have hq : (n : ℚ) * unitOf q = q := by
    rw [← h, div_mul_cancel₀ _ (unitOf_pos q).ne']
  simp only [rn64, h, Int.floor_intCast, sub_self]
  norm_num [hq]

/-- A positive number of at most 53 significant bits is not rounded. -/
theorem rn64_natCast_mul_zpow {n : ℕ} (hpos : 0 < n) (hlt : n < 2 ^ 53) (k : ℤ) :
    rn64 (n * (2 : ℚ) ^ k) = n * (2 : ℚ) ^ k := by
  have hn : (n : ℚ) < (2 : ℚ) ^ (53 : ℤ) := mod_cast hlt
  have hq : 0 < (n : ℚ) * (2 : ℚ) ^ k := by positivity
  have hexp : exponentOf (n * (2 : ℚ) ^ k) - 52 ≤ k := by
    have hbound : (2 : ℚ) ^ exponentOf (n * (2 : ℚ) ^ k) < (2 : ℚ) ^ (53 + k) :=
      calc (2 : ℚ) ^ exponentOf (n * (2 : ℚ) ^ k) ≤ n * (2 : ℚ) ^ k := zpow_exponentOf_le hq
        _ < (2 : ℚ) ^ (53 : ℤ) * (2 : ℚ) ^ k := by gcongr
        _ = (2 : ℚ) ^ (53 + k) := (zpow_add₀ two_ne_zero _ _).symm
    have hlog := (zpow_lt_zpow_iff_right₀ one_lt_two).mp hbound
    omega
  refine rn64_of_div_unitOf_eq (n := n * 2 ^ (k - (exponentOf (n * (2 : ℚ) ^ k) - 52)).toNat) ?_
  rw [mul_div_assoc, zpow_div_unitOf _ hexp, Int.cast_mul, Int.cast_natCast]

theorem rn64_zpow (k : ℤ) : rn64 ((2 : ℚ) ^ k) = (2 : ℚ) ^ k := by
  simpa using rn64_natCast_mul_zpow one_pos (by norm_num) k

/-- Rounding does not go below a power of two. -/
theorem zpow_le_rn64 {q : ℚ} {k : ℤ} (h : (2 : ℚ) ^ k ≤ q) : (2 : ℚ) ^ k ≤ rn64 q := by
  have hq : 0 < q := (zpow_pos two_pos k).trans_le h
  have hk : k ≤ exponentOf q := (le_exponentOf_iff hq).mpr h
  have hfloor : 2 ^ (exponentOf q - (exponentOf q - 52)).toNat ≤ ⌊q / unitOf q⌋ := by
    rw [Int.le_floor, ← zpow_div_unitOf q (by omega)]
    exact div_le_div_of_nonneg_right (zpow_exponentOf_le hq) (unitOf_pos q).le
  calc (2 : ℚ) ^ k ≤ (2 : ℚ) ^ exponentOf q := zpow_le_zpow_right₀ one_le_two hk
    _ = ((2 ^ (exponentOf q - (exponentOf q - 52)).toNat : ℤ) : ℚ) * unitOf q :=
      (div_eq_iff (unitOf_pos q).ne').mp (zpow_div_unitOf q (by omega))
    _ ≤ ⌊q / unitOf q⌋ * unitOf q := mul_le_mul_of_nonneg_right (mod_cast hfloor) (unitOf_pos q).le
    _ ≤ rn64 q := floor_mul_unitOf_le_rn64 q

/-- Rounding does not go above a power of two. -/
theorem rn64_le_zpow {q : ℚ} {k : ℤ} (hq : 0 < q) (h : q ≤ (2 : ℚ) ^ k) : rn64 q ≤ (2 : ℚ) ^ k := by
  rcases h.eq_or_lt with rfl | hlt
  · exact (rn64_zpow k).le
  · have hk : exponentOf q + 1 ≤ k := by
      rw [Int.add_one_le_iff, ← not_le, le_exponentOf_iff hq]
      exact not_le.mpr hlt
    have hfloor : ⌊q / unitOf q⌋ < 2 ^ (k - (exponentOf q - 52)).toNat := by
      rw [Int.floor_lt, ← zpow_div_unitOf q (by omega)]
      exact div_lt_div_of_pos_right hlt (unitOf_pos q)
    calc rn64 q ≤ (⌊q / unitOf q⌋ + 1) * unitOf q := rn64_le_floor_succ_mul_unitOf q
      _ ≤ ((2 ^ (k - (exponentOf q - 52)).toNat : ℤ) : ℚ) * unitOf q :=
        mul_le_mul_of_nonneg_right (mod_cast hfloor) (unitOf_pos q).le
      _ = (2 : ℚ) ^ k := ((div_eq_iff (unitOf_pos q).ne').mp (zpow_div_unitOf q (by omega))).symm

end Sys2Proof.Machine
end

section
/-! The sum of the terms (`43_estimate.md` R125). Every term of a reachable estimator is a whole number of
`2^-29`, and no partial sum needs more than 46 bits of them, so no addition rounds. -/

namespace Sys2Proof.Machine

/-- The sum of the terms in units of `2^-29`, as the accumulator of R125 counts it, without a width. -/
def sumUnits (cells : List Byte) : ℕ := (cells.map fun r => 2 ^ (29 - r.toNat)).sum

@[simp] theorem sumUnits_nil : sumUnits [] = 0 := rfl

@[simp] theorem sumUnits_cons (r : Byte) (cells : List Byte) :
    sumUnits (r :: cells) = 2 ^ (29 - r.toNat) + sumUnits cells := by
  simp [sumUnits]

theorem cellTerm_eq_units {r : Byte} (hr : r.toNat ≤ 29) :
    cellTerm r = ((2 ^ (29 - r.toNat) : ℕ) : ℚ) * (2 : ℚ) ^ (-29 : ℤ) := by
  rw [cellTerm, Nat.cast_pow, Nat.cast_ofNat, ← zpow_natCast, ← zpow_add₀ two_ne_zero]
  congr 1
  omega

/-- The exact sum, in units. -/
theorem sumExact_eq_units {cells : List Byte} (h : ∀ r ∈ cells, r.toNat ≤ 29) :
    sumExact cells = sumUnits cells * (2 : ℚ) ^ (-29 : ℤ) := by
  induction cells with
  | nil => simp
  | cons r cells ih =>
    rw [sumExact_cons, sumUnits_cons, cellTerm_eq_units (h r List.mem_cons_self),
      ih fun x hx => h x (List.mem_cons_of_mem r hx), Nat.cast_add, add_mul]

theorem sumUnits_le (cells : List Byte) : sumUnits cells ≤ cells.length * 2 ^ 29 := by
  have hterm : ∀ n ∈ cells.map fun r => 2 ^ (29 - r.toNat), n ≤ 2 ^ 29 := by
    intro n hn
    obtain ⟨r, -, rfl⟩ := List.mem_map.mp hn
    exact Nat.pow_le_pow_right two_pos (Nat.sub_le 29 r.toNat)
  simpa [sumUnits] using List.sum_le_card_nsmul _ _ hterm

/-- The vector of a block is short enough for the accumulator of R125 and for binary64. -/
theorem sumUnits_le_of_length {cells : List Byte} (h : cells.length ≤ 2 ^ 16) : sumUnits cells ≤ 2 ^ 45 :=
  calc sumUnits cells ≤ cells.length * 2 ^ 29 := sumUnits_le cells
    _ ≤ 2 ^ 16 * 2 ^ 29 := Nat.mul_le_mul_right _ h
    _ = 2 ^ 45 := by norm_num

/-- Adding terms in binary64 is exact as long as the sum has at most 53 bits of units. -/
theorem addTerms_units {n : ℕ} {cells : List Byte} (hpos : 0 < n) (h : ∀ r ∈ cells, r.toNat ≤ 29)
    (hlt : n + sumUnits cells < 2 ^ 53) :
    addTerms (n * (2 : ℚ) ^ (-29 : ℤ)) cells = (n + sumUnits cells : ℕ) * (2 : ℚ) ^ (-29 : ℤ) := by
  induction cells generalizing n with
  | nil => simp
  | cons r cells ih =>
    rw [sumUnits_cons, ← Nat.add_assoc] at hlt
    have hpos' : 0 < n + 2 ^ (29 - r.toNat) := Nat.add_pos_left hpos _
    rw [addTerms_cons, cellTerm_eq_units (h r List.mem_cons_self), ← add_mul, ← Nat.cast_add,
      rn64_natCast_mul_zpow hpos' (Nat.lt_of_add_right_lt hlt),
      ih hpos' (fun x hx => h x (List.mem_cons_of_mem r hx)) hlt, sumUnits_cons, Nat.add_assoc]

/-- The binary64 sum is exact on any cells of the reachable range, in the order given. -/
theorem sum64_eq_sumExact {cells : List Byte} (h : ∀ r ∈ cells, r.toNat ≤ 29) (hlen : cells.length ≤ 2 ^ 16) :
    sum64 cells = sumExact cells := by
  have hunits := sumUnits_le_of_length hlen
  rw [sumExact_eq_units h]
  cases cells with
  | nil => simp [sum64]
  | cons r cells =>
    rw [sumUnits_cons] at hunits
    rw [sum64_cons, cellTerm_eq_units (h r List.mem_cons_self),
      addTerms_units (by positivity) (fun x hx => h x (List.mem_cons_of_mem r hx)) (by omega), sumUnits_cons]

theorem sumExact_perm {a b : List Byte} (h : a.Perm b) : sumExact a = sumExact b := (h.map cellTerm).sum_eq

/-- The 46-bit accumulator holds the count of units, modulo its width. -/
theorem sumFixed_eq_units (cells : List Byte) : sumFixed cells = BitVec.ofNat 46 (sumUnits cells) := by
  have fold (acc : BitVec 46) :
      cells.foldl (fun acc r => acc + BitVec.ofNat 46 (2 ^ (29 - r.toNat))) acc =
        acc + BitVec.ofNat 46 (sumUnits cells) := by
    induction cells generalizing acc with
    | nil => simp
    | cons r cells ih => rw [List.foldl_cons, ih, sumUnits_cons, BitVec.ofNat_add, BitVec.add_assoc]
  simpa [sumFixed] using fold 0

/-- R125: the accumulator does not overflow on the reachable range, and its value is the exact sum. -/
theorem toNat_sumFixed {cells : List Byte} (h : ∀ r ∈ cells, r.toNat ≤ 29) (hlen : cells.length ≤ 2 ^ 16) :
    ((sumFixed cells).toNat : ℚ) = sumExact cells * 2 ^ 29 := by
  have hunits := sumUnits_le_of_length hlen
  rw [sumFixed_eq_units, BitVec.toNat_ofNat, Nat.mod_eq_of_lt (by omega), sumExact_eq_units h, mul_assoc]
  norm_num

/-! ### Bounds of the sum -/

theorem cellTerm_le_one (r : Byte) : cellTerm r ≤ 1 := zpow_le_one_of_nonpos₀ one_le_two (by omega)

theorem zpow_neg_le_cellTerm {r : Byte} {n : ℕ} (h : r.toNat ≤ n) : (2 : ℚ) ^ (-(n : ℤ)) ≤ cellTerm r :=
  zpow_le_zpow_right₀ one_le_two (by omega)

theorem sumExact_le_length (cells : List Byte) : sumExact cells ≤ cells.length := by
  have hterm : ∀ x ∈ cells.map cellTerm, x ≤ 1 := by
    intro x hx
    obtain ⟨r, -, rfl⟩ := List.mem_map.mp hx
    exact cellTerm_le_one r
  simpa [sumExact] using List.sum_le_card_nsmul _ _ hterm

theorem length_mul_zpow_le_sumExact {cells : List Byte} {n : ℕ} (h : ∀ r ∈ cells, r.toNat ≤ n) :
    cells.length * (2 : ℚ) ^ (-(n : ℤ)) ≤ sumExact cells := by
  have hterm : ∀ x ∈ cells.map cellTerm, (2 : ℚ) ^ (-(n : ℤ)) ≤ x := by
    intro x hx
    obtain ⟨r, hr, rfl⟩ := List.mem_map.mp hx
    exact zpow_neg_le_cellTerm (h r hr)
  simpa [sumExact] using List.card_nsmul_le_sum _ _ hterm

/-- R125: the upper bound of `S`, reached when every cell is 0. -/
theorem sumExact_cells_le (e : Estimator) : sumExact e.cells ≤ 2 ^ e.p.toNat := by
  simpa using sumExact_le_length e.cells

/-! ### The estimators that meet the invariant -/

section
variable {e : Estimator} (he : e.Inv)
include he

theorem mem_cells_le_29 {r : Byte} (hr : r ∈ e.cells) : r.toNat ≤ 29 := by
  have hle := mem_cells_le_rankMax he hr
  obtain ⟨hlo, -, -, -⟩ := he
  simp only [Config.rankMax, Config.pMin] at hle hlo
  omega

theorem length_cells_le : e.cells.length ≤ 2 ^ 16 := by
  obtain ⟨-, hhi, -, -⟩ := he
  exact length_cells e ▸ Nat.pow_le_pow_right two_pos hhi

/-- R125: the lower bound of `S`, reached when every cell holds `33 - p`. -/
theorem zpow_le_sumExact_cells : (2 : ℚ) ^ (2 * (e.p.toNat : ℤ) - 33) ≤ sumExact e.cells := by
  have hsum := length_mul_zpow_le_sumExact fun r hr => mem_cells_le_rankMax he hr
  obtain ⟨-, hhi, -, -⟩ := he
  have hexp : 2 * (e.p.toNat : ℤ) - 33 = e.p.toNat + -(Config.rankMax e.p.toNat : ℤ) := by
    simp only [Config.rankMax, Config.pMax] at hhi ⊢
    omega
  rw [hexp, zpow_add₀ two_ne_zero, zpow_natCast]
  simpa using hsum

/-- R125: the bounds of the indicator before its rounding. -/
theorem one_div_sumExact_bounds :
    (2 : ℚ) ^ (-16 : ℤ) ≤ 1 / sumExact e.cells ∧ 1 / sumExact e.cells ≤ (2 : ℚ) ^ (25 : ℤ) := by
  have hlower := zpow_le_sumExact_cells he
  have hupper := sumExact_cells_le e
  obtain ⟨hlo, hhi, -, -⟩ := he
  simp only [Config.pMin, Config.pMax] at hlo hhi
  have hlower' : (2 : ℚ) ^ (-25 : ℤ) ≤ sumExact e.cells :=
    (zpow_le_zpow_right₀ one_le_two (by omega)).trans hlower
  have hupper' : sumExact e.cells ≤ (2 : ℚ) ^ (16 : ℤ) :=
    hupper.trans (mod_cast pow_le_pow_right₀ one_le_two hhi)
  have hpos : 0 < sumExact e.cells := (zpow_pos two_pos _).trans_le hlower'
  constructor
  · rw [zpow_neg, ← one_div]
    exact one_div_le_one_div_of_le hpos hupper'
  · rw [one_div]
    exact inv_le_of_inv_le₀ (zpow_pos two_pos _) (by rwa [← zpow_neg])

end

/-- Settles O37: the sum in units of `2^-29` never needs more than 53 bits, so no addition rounds and the order
does not matter; rounding the reciprocal does not cross the powers of two that bound it. -/
theorem binarySumIsExact : Obligations.BinarySumIsExact := by
  intro e he
  have hcells : ∀ r ∈ e.cells, r.toNat ≤ 29 := fun r hr => mem_cells_le_29 he hr
  have hlen := length_cells_le he
  have hsum := sum64_eq_sumExact hcells hlen
  obtain ⟨hlower, hupper⟩ := one_div_sumExact_bounds he
  refine ⟨hsum, fun order hperm => ?_, toNat_sumFixed hcells hlen, zpow_le_sumExact_cells he, sumExact_cells_le e,
    ?_, ?_⟩
  · have hexact := sum64_eq_sumExact (fun r hr => hcells r (hperm.mem_iff.mp hr)) (hperm.length_eq ▸ hlen)
    exact hexact.trans (sumExact_perm hperm)
  · exact hsum ▸ zpow_le_rn64 hlower
  · have hpos : 0 < 1 / sumExact e.cells := (zpow_pos two_pos _).trans_le hlower
    rw [hsum]
    exact mod_cast rn64_le_zpow hpos hupper

end Sys2Proof.Machine
end

section
/-! The read commands (`20_memory.md` R48): each only appends an answer, and the block alone fixes that answer. -/

namespace Sys2Proof

/-- `EST`, `CNT` and `RDREG`, the commands that write neither `cfg`, `p` nor a cell (R48). -/
def Instr.IsRead (i : Instr) : Prop := i = .est ∨ i = .cnt ∨ ∃ idx, i = .rdreg idx

theorem Instr.IsRead.ne_init {i : Instr} (hi : i.IsRead) (v : BitVec 32) : i ≠ .init v := by
  obtain rfl | rfl | ⟨idx, rfl⟩ := hi <;> exact nofun

end Sys2Proof

namespace Sys2Proof.Machine

/-! ### Equations of the read commands on a configured block -/

section
variable {s : State} {e : Estimator} (hs : s.block = .configured e)
include hs

/-- R120: `EST` on a configured block. -/
theorem exec_est_configured : exec .est s = .next (s.respond .ok (bits64 e.estimate)) :=
  congrArg Host.Outcome.next (withEstimator_configured hs _)

/-- R140: `CNT` on a configured block. -/
theorem exec_cnt_configured : exec .cnt s = .next (s.respond .ok (BitVec.ofNat 64 e.m)) :=
  congrArg Host.Outcome.next (withEstimator_configured hs _)

/-- R141: `RDREG` of a cell the block has. -/
theorem exec_rdreg_inRange {idx : BitVec 16} (hidx : idx.toNat < e.m) :
    exec (.rdreg idx) s = .next (s.respond .ok ((RegFile.read e.regs idx.toNat).setWidth 64)) :=
  congrArg Host.Outcome.next ((withEstimator_configured hs _).trans (if_neg (Nat.not_le.mpr hidx)))

/-- R141: `RDREG` beyond the last cell is refused. -/
theorem exec_rdreg_outOfRange {idx : BitVec 16} (hidx : e.m ≤ idx.toNat) :
    exec (.rdreg idx) s = .next (s.raise .badIndex) :=
  congrArg Host.Outcome.next ((withEstimator_configured hs _).trans (if_pos hidx))

end

/-! ### Lists of commands -/

theorem execAll_cons {i : Instr} {s t : State} (h : exec i s = .next t) (is : List Instr) :
    execAll (i :: is) s = execAll is t := by
  simp only [execAll, h]

theorem execAll_append {is : List Instr} {s t : State} (h : execAll is s = .next t) (js : List Instr) :
    execAll (is ++ js) s = execAll js t := by
  induction is generalizing s with
  | nil =>
    cases h
    rfl
  | cons i is ih =>
    obtain ⟨u, hu, -⟩ := exec_answers i s
    rw [execAll_cons hu] at h
    exact (execAll_cons hu (is ++ js)).trans (ih h)

/-! ### Reads answer from the block and change nothing else -/

/-- R48: the same answer `r` from every state with this block, so a read can be repeated. -/
theorem exec_read_of_block {i : Instr} (hi : i.IsRead) (b : Block) :
    ∃ r, ∀ s : State, s.block = b → exec i s = .next { s with responses := s.responses ++ [r] } := by
  cases b with
  | unconfigured => exact ⟨_, fun s hs => exec_unconfigured hi.ne_init hs⟩
  | configured e =>
    obtain rfl | rfl | ⟨idx, rfl⟩ := hi
    · exact ⟨_, fun s hs => exec_est_configured hs⟩
    · exact ⟨_, fun s hs => exec_cnt_configured hs⟩
    · rcases Nat.lt_or_ge idx.toNat e.m with hidx | hidx
      · exact ⟨_, fun s hs => exec_rdreg_inRange hs hidx⟩
      · exact ⟨_, fun s hs => exec_rdreg_outOfRange hs hidx⟩

/-- R48: reads in any number append one answer each and change nothing else. -/
theorem execAll_reads {is : List Instr} (his : ∀ i ∈ is, i.IsRead) (s : State) :
    ∃ rs, rs.length = is.length ∧ execAll is s = .next { s with responses := s.responses ++ rs } := by
  induction is generalizing s with
  | nil => exact ⟨[], rfl, by simp [execAll]⟩
  | cons i is ih =>
    obtain ⟨hi, his⟩ := List.forall_mem_cons.mp his
    obtain ⟨r, hr⟩ := exec_read_of_block hi s.block
    obtain ⟨rs, hlen, hrs⟩ := ih his { s with responses := s.responses ++ [r] }
    refine ⟨r :: rs, congrArg (· + 1) hlen, (execAll_cons (hr s rfl) is).trans (hrs.trans ?_)⟩
    simp

/-- Settles O48: the reads between leave the block as it was, and the block fixes the answer. -/
theorem readCommandsAreRepeatable : Obligations.ReadCommandsAreRepeatable := by
  intro i between s u hreads hu
  obtain ⟨hi, hbetween⟩ := List.forall_mem_cons.mp hreads
  obtain ⟨r, hr⟩ := exec_read_of_block hi s.block
  obtain ⟨rs, hlen, hrs⟩ := execAll_reads hbetween { s with responses := s.responses ++ [r] }
  have hreadsRun := (execAll_cons (hr s rfl) between).trans hrs
  have hagain := hr { s with responses := s.responses ++ [r] ++ rs } rfl
  rw [execAll_append hreadsRun, execAll_cons hagain] at hu
  cases hu
  exact ⟨rfl, rfl, r, rs, hlen, rfl⟩

end Sys2Proof.Machine
end

section
/-! The encoding of the command words (`30_encoding.md`): the decoder inverts the encoder and back, a word decodes to
the row of the opcode table that it selects, and the illegal words are those that select none. -/

namespace Sys2Proof

/-! ### Words by their fields -/

theorem makeWord_eq_iff {op : BitVec 8} {arg : BitVec 32} {w : CmdWord} :
    makeWord op arg = w ↔ opField w = op ∧ argField w = arg := by
  constructor
  · rintro rfl
    exact ⟨opField_makeWord op arg, argField_makeWord op arg⟩
  · rintro ⟨rfl, rfl⟩
    exact makeWord_fields w

/-- R64: every row's mask tests the whole opcode, and the operand through the mask `m`. -/
theorem and_rowMask_eq_iff (w : CmdWord) (op : BitVec 8) (m arg : BitVec 32) :
    w &&& makeWord 0xFF m = makeWord op arg ↔ opField w = op ∧ argField w &&& m = arg := by
  calc w &&& makeWord 0xFF m = makeWord op arg
    _ ↔ makeWord (opField w) (argField w) &&& makeWord 0xFF m = makeWord op arg := by rw [makeWord_fields]
    _ ↔ opField w &&& BitVec.allOnes 8 = op ∧ argField w &&& m = arg := by rw [makeWord_and, makeWord_inj]; rfl
    _ ↔ opField w = op ∧ argField w &&& m = arg := by rw [BitVec.and_allOnes]

theorem argField_low (w : CmdWord) : (argField w).extractLsb' 0 16 = w.extractLsb' 0 16 :=
  BitVec.extractLsb'_extractLsb'_of_le (by decide)

theorem argField_high (w : CmdWord) : (argField w).extractLsb' 16 16 = w.extractLsb' 16 16 :=
  BitVec.extractLsb'_extractLsb'_of_le (by decide)

/-- R61: an operand is its low half zero-extended exactly when its high half is 0. -/
theorem setWidth_low_eq_iff (x : BitVec 32) :
    (x.extractLsb' 0 16).setWidth 32 = x ↔ x.extractLsb' 16 16 = 0 := by
  constructor
  · intro h
    rw [← h]
    ext i hi
    simp
  · intro h
    ext i hi
    by_cases hlow : i < 16
    · simp [hlow, BitVec.getLsbD_eq_getElem hi]
    · have hbit := congrArg (fun y => y.getLsbD (i - 16)) h
      simpa [hlow, show i - 16 < 16 by omega, show 16 + (i - 16) = i by omega, ← BitVec.getLsbD_eq_getElem]
        using hbit.symm

/-- R64: the mask of the `RDREG` row tests the high half of the operand. -/
theorem and_highMask_eq_zero_iff (x : BitVec 32) : x &&& 0xFFFF0000#32 = 0 ↔ x.extractLsb' 16 16 = 0 := by
  constructor
  · intro h
    calc x.extractLsb' 16 16
      _ = x.extractLsb' 16 16 &&& (0xFFFF0000#32).extractLsb' 16 16 := (BitVec.and_allOnes ..).symm
      _ = (x &&& 0xFFFF0000#32).extractLsb' 16 16 := (BitVec.extractLsb'_and ..).symm
      _ = 0 := by rw [h]; rfl
  · intro h
    rw [← (setWidth_low_eq_iff x).mpr h]
    exact index_and_high _

/-! ### The round trip -/

/-- Settles O2: `decode_encode` goes through the commands, with the zero-extended index of `RDREG` taken apart. -/
theorem decodeOfEncode : Obligations.DecodeOfEncode := decode_encode

theorem decodeNoOperand_eq_ok {i j : Instr} {w : CmdWord} (h : decodeNoOperand i w = .ok j) :
    argField w = 0 ∧ i = j := by
  unfold decodeNoOperand at h
  split_ifs at h with harg
  exact ⟨harg, Except.ok.inj h⟩

theorem decodeIndex_eq_ok {w : CmdWord} {j : Instr} (h : decodeIndex w = .ok j) :
    ∃ idx : BitVec 16, argField w = idx.setWidth 32 ∧ .rdreg idx = j := by
  unfold decodeIndex at h
  split_ifs at h with hhigh
  exact ⟨_, ((setWidth_low_eq_iff _).mpr hhigh).symm, Except.ok.inj h⟩

/-- R65: each command the decoder answers is built from the word's own fields. -/
theorem encode_of_decode {w : CmdWord} {i : Instr} (h : decode w = .ok i) : encode i = w := by
  unfold decode at h
  split_ifs at h with hop hop hop hop hop
  · cases h
    exact makeWord_eq_iff.mpr ⟨hop, rfl⟩
  · cases h
    exact makeWord_eq_iff.mpr ⟨hop, rfl⟩
  · obtain ⟨harg, rfl⟩ := decodeNoOperand_eq_ok h
    exact makeWord_eq_iff.mpr ⟨hop, harg⟩
  · obtain ⟨harg, rfl⟩ := decodeNoOperand_eq_ok h
    exact makeWord_eq_iff.mpr ⟨hop, harg⟩
  · obtain ⟨idx, harg, rfl⟩ := decodeIndex_eq_ok h
    exact makeWord_eq_iff.mpr ⟨hop, harg⟩

/-- Settles O3: the word is rebuilt from its two fields. -/
theorem encodeOfDecode : Obligations.EncodeOfDecode := fun _ _ => encode_of_decode

theorem decode_eq_ok_iff {w : CmdWord} {i : Instr} : decode w = .ok i ↔ encode i = w :=
  ⟨encode_of_decode, fun h => h ▸ decode_encode i⟩

/-! ### The rows of the opcode table -/

theorem and_initRow_iff (w : CmdWord) :
    w &&& 0xFF00000000 = 0x0100000000 ↔ decode w = .ok (.init (argField w)) := by
  calc w &&& 0xFF00000000 = 0x0100000000
    _ ↔ opField w = 0x01 ∧ argField w &&& 0 = 0 := and_rowMask_eq_iff w 0x01 0 0
    _ ↔ decode w = .ok (.init (argField w)) := by simp [decode_eq_ok_iff, encode, makeWord_eq_iff]

theorem and_addRow_iff (w : CmdWord) :
    w &&& 0xFF00000000 = 0x0200000000 ↔ decode w = .ok (.add (argField w)) := by
  calc w &&& 0xFF00000000 = 0x0200000000
    _ ↔ opField w = 0x02 ∧ argField w &&& 0 = 0 := and_rowMask_eq_iff w 0x02 0 0
    _ ↔ decode w = .ok (.add (argField w)) := by simp [decode_eq_ok_iff, encode, makeWord_eq_iff]

/-- A row whose mask is all ones is selected by its pattern alone. -/
theorem and_fullMask_iff {i : Instr} {pattern : CmdWord} (hp : encode i = pattern) (w : CmdWord) :
    w &&& 0xFFFFFFFFFF = pattern ↔ decode w = .ok i := by
  calc w &&& BitVec.allOnes 40 = pattern
    _ ↔ w = pattern := by rw [BitVec.and_allOnes]
    _ ↔ decode w = .ok i := by rw [decode_eq_ok_iff, hp, eq_comm]

theorem and_rdregRow_iff (w : CmdWord) :
    w &&& 0xFFFFFF0000 = 0x0500000000 ↔ decode w = .ok (.rdreg (w.extractLsb' 0 16)) := by
  calc w &&& 0xFFFFFF0000 = 0x0500000000
    _ ↔ opField w = 0x05 ∧ argField w &&& 0xFFFF0000#32 = 0 := and_rowMask_eq_iff w 0x05 0xFFFF0000 0
    _ ↔ opField w = 0x05 ∧ argField w = ((argField w).extractLsb' 0 16).setWidth 32 := by
      rw [and_highMask_eq_zero_iff, ← setWidth_low_eq_iff, eq_comm (a := argField w)]
    _ ↔ decode w = .ok (.rdreg (w.extractLsb' 0 16)) := by
      rw [argField_low, decode_eq_ok_iff, encode, makeWord_eq_iff]

theorem selects_encode (i : Instr) : Laws.RowSelection.Statement i := by
  cases i with
  | init v => exact Laws.RowSelection.init v
  | add h => exact Laws.RowSelection.add h
  | est => exact Laws.RowSelection.est
  | cnt => exact Laws.RowSelection.cnt
  | rdreg idx => exact Laws.RowSelection.rdreg idx

/-- R64: a word selects the row of the command it decodes to. -/
theorem selects_iff {r : OpcodeRow} (hr : r ∈ opcodeTable) (w : CmdWord) :
    r.selects w = true ↔ ∃ i, decode w = .ok i ∧ i.mnemonic = r.mnemonic := by
  constructor
  · intro h
    have hmask : w &&& r.mask = r.pattern := of_decide_eq_true h
    simp only [opcodeTable, List.mem_cons, List.not_mem_nil, or_false] at hr
    rcases hr with rfl | rfl | rfl | rfl | rfl
    · exact ⟨_, (and_initRow_iff w).mp hmask, rfl⟩
    · exact ⟨_, (and_addRow_iff w).mp hmask, rfl⟩
    · exact ⟨.est, (and_fullMask_iff rfl w).mp hmask, rfl⟩
    · exact ⟨.cnt, (and_fullMask_iff rfl w).mp hmask, rfl⟩
    · exact ⟨_, (and_rdregRow_iff w).mp hmask, rfl⟩
  · rintro ⟨i, hdec, hmn⟩
    rw [← encode_of_decode hdec, selects_encode i r hr]
    exact decide_eq_true hmn.symm

/-- R66: the words that select no row are those that decode to no command. -/
theorem no_row_iff (w : CmdWord) : (∀ r ∈ opcodeTable, r.selects w = false) ↔ ∀ i, decode w ≠ .ok i := by
  constructor
  · intro h i hdec
    have hrow : ∃ r ∈ opcodeTable, i.mnemonic = r.mnemonic := by
      cases i <;> simp [opcodeTable, Instr.mnemonic]
    obtain ⟨r, hr, hmn⟩ := hrow
    exact Bool.eq_false_iff.mp (h r hr) ((selects_iff hr w).mpr ⟨i, hdec, hmn⟩)
  · intro h r hr
    refine Bool.eq_false_iff.mpr fun hsel => ?_
    obtain ⟨i, hdec, -⟩ := (selects_iff hr w).mp hsel
    exact h i hdec

/-- R64: the rows are disjoint. -/
theorem length_filter_selects_le (w : CmdWord) : (opcodeTable.filter fun r => r.selects w).length ≤ 1 := by
  cases hdec : decode w with
  | error err =>
    have hnone := (no_row_iff w).mpr fun i => by simp [hdec]
    simp [List.filter_eq_nil_iff.mpr fun r hr => Bool.eq_false_iff.mp (hnone r hr)]
  | ok i =>
    rw [← encode_of_decode hdec, List.filter_congr (selects_encode i)]
    cases i <;> simp [opcodeTable, Instr.mnemonic]

/-- Settles O4: one lemma for each row, and the disjointness of the rows. -/
theorem decodeFollowsOpcodeTable : Obligations.DecodeFollowsOpcodeTable := fun w =>
  ⟨and_initRow_iff w, and_addRow_iff w, and_fullMask_iff (i := .est) rfl w,
    and_fullMask_iff (i := .cnt) rfl w, and_rdregRow_iff w, length_filter_selects_le w⟩

end Sys2Proof
end

section
/-! The words that are no command (`30_encoding.md` R66) and their answer (`60_exceptions.md` R154), the worked
encodings of both kinds of words (R71), and the response word (R62). -/

namespace Sys2Proof

open Machine

/-- R66's list of the illegal words, by the opcode and the operand. -/
def IllegalFields (w : CmdWord) : Prop :=
  (opField w).toNat = 0x00 ∨ 0x06 ≤ (opField w).toNat ∨
    ((opField w).toNat = 0x03 ∨ (opField w).toNat = 0x04) ∧ argField w ≠ 0 ∨
    (opField w).toNat = 0x05 ∧ w.extractLsb' 16 16 ≠ 0

theorem ite_ne_ok_iff {c : Prop} [Decidable c] (i : Instr) (err : DecodeError) :
    (∀ j, (if c then .ok i else .error err) ≠ Except.ok j) ↔ ¬ c := by
  split_ifs with h
  · exact iff_of_false (fun hne => hne i rfl) (not_not.mpr h)
  · exact iff_of_true (fun j => nofun) h

theorem decodeNoOperand_ne_ok_iff (i : Instr) (w : CmdWord) :
    (∀ j, decodeNoOperand i w ≠ .ok j) ↔ argField w ≠ 0 := ite_ne_ok_iff i _

theorem decodeIndex_ne_ok_iff (w : CmdWord) : (∀ j, decodeIndex w ≠ .ok j) ↔ w.extractLsb' 16 16 ≠ 0 :=
  argField_high w ▸ ite_ne_ok_iff _ _

/-- R66: the decoder's branches, one for each opcode and one for the opcodes of no row. -/
theorem illegalFields_iff (w : CmdWord) : IllegalFields w ↔ ∀ i, decode w ≠ .ok i := by
  unfold IllegalFields decode
  split_ifs with h1 h2 h3 h4 h5
  · simp [h1]
  · simp [h2]
  · simp [h3, decodeNoOperand_ne_ok_iff]
  · simp [h4, decodeNoOperand_ne_ok_iff]
  · simp [h5, decodeIndex_ne_ok_iff]
  · have hop : (opField w).toNat = 0x00 ∨ 0x06 ≤ (opField w).toNat := by bv_omega
    exact iff_of_true (hop.imp_right .inl) (by simp)

/-- Settles O5: both lists of illegal words are those without a command, and such a word is only answered. -/
theorem illegalWordsAnswered : Obligations.IllegalWordsAnswered := by
  intro w
  refine ⟨(illegalFields_iff w).trans (no_row_iff w).symm, no_row_iff w, ?_⟩
  intro s rest hin hrows
  cases hdec : decode w with
  | ok i => exact absurd hdec ((no_row_iff w).mp hrows i)
  | error err =>
    calc step s
      _ = performWord w { s with inputs := rest } := step_of_command hin
      _ = .next (State.raise .illegalCmd { s with inputs := rest }) := performWord_of_decode_error hdec _

/-- Settles O1: the encoder computes each word, the decoder inverts it, and the illegal words select no row. -/
theorem workedEncodings : Obligations.WorkedEncodings := by
  have hworked : ∀ {i : Instr} {w : CmdWord}, encode i = w → encode i = w ∧ decode w = .ok i :=
    fun h => ⟨h, decode_eq_ok_iff.mpr h⟩
  refine ⟨hworked rfl, hworked rfl, fun s => ?_, hworked rfl, hworked rfl, hworked rfl, hworked rfl, fun w hw => ?_⟩
  · exact exec_init_outOfRange (.inr (by decide)) s
  · refine (no_row_iff w).mp ?_
    simp only [List.mem_cons, List.not_mem_nil, or_false] at hw
    rcases hw with rfl | rfl | rfl | rfl <;> decide

end Sys2Proof

namespace Sys2Proof.Machine

/-- Settles O6: the response word appends the data to the status code. -/
theorem responseWordLayout : Obligations.ResponseWordLayout := by
  refine ⟨fun r => ⟨BitVec.extractLsb'_append_eq_left, BitVec.extractLsb'_append_eq_right⟩, fun st => ?_,
    rfl, rfl, rfl, rfl, rfl⟩
  cases st <;> decide

end Sys2Proof.Machine
end

section
/-! The assembler (`30_encoding.md` R69) and the pseudo-instructions (R70): an accepted line is the encoding of its
command, so what it says about the operand is read off the round trip of decoder and encoder. -/

namespace Sys2Proof

theorem wellFormed_of_assemble {l : AsmLine} {w : CmdWord} (h : l.assemble = some w) : l.wellFormed = true := by
  unfold AsmLine.assemble at h
  split_ifs at h with hwf
  exact hwf

theorem decode_of_assemble {l : AsmLine} {i : Instr} {w : CmdWord} (h : l.assemble = some w)
    (hi : l.assemble = some (encode i)) : decode w = .ok i := by
  have hw : encode i = w := Option.some.inj (hi.symm.trans h)
  exact decode_eq_ok_iff.mpr hw

theorem assemble_init {v : Nat} (hv : v < 2 ^ 32) :
    AsmLine.assemble (.init v) = some (encode (.init (BitVec.ofNat 32 v))) :=
  if_pos (decide_eq_true hv)

theorem assemble_add {h : Nat} (hh : h < 2 ^ 32) :
    AsmLine.assemble (.add h) = some (encode (.add (BitVec.ofNat 32 h))) :=
  if_pos (decide_eq_true hh)

theorem assemble_rdreg {i : Nat} (hi : i < 2 ^ 16) :
    AsmLine.assemble (.rdreg i) = some (encode (.rdreg (BitVec.ofNat 16 i))) := by
  have harg : (BitVec.ofNat 16 i).setWidth 32 = BitVec.ofNat 32 i :=
    BitVec.setWidth_ofNat_of_le_of_lt (by decide) hi
  rw [encode, harg]
  exact if_pos (decide_eq_true hi)

theorem assemble_est : AsmLine.assemble .est = some (encode .est) := rfl

theorem assemble_cnt : AsmLine.assemble .cnt = some (encode .cnt) := rfl

theorem assemble_word {n : Nat} (hn : n < 2 ^ 40) : AsmLine.assemble (.word n) = some (BitVec.ofNat 40 n) :=
  if_pos (decide_eq_true hn)

/-- Settles O7: an accepted line is well formed, and its word decodes to the command it encodes. -/
theorem assemblerNeverTruncates : Obligations.AssemblerNeverTruncates := by
  refine ⟨fun v w hw => ?_, fun h w hw => ?_, fun i w hw => ?_, fun v => assemble_init, fun h => assemble_add,
    fun i => assemble_rdreg, assemble_est, assemble_cnt, fun n w hw => ?_, fun n => assemble_word⟩
  · have hv : v < 2 ^ 32 := of_decide_eq_true (wellFormed_of_assemble hw)
    exact ⟨hv, _, decode_of_assemble hw (assemble_init hv), Nat.mod_eq_of_lt hv⟩
  · have hh : h < 2 ^ 32 := of_decide_eq_true (wellFormed_of_assemble hw)
    exact ⟨hh, _, decode_of_assemble hw (assemble_add hh), Nat.mod_eq_of_lt hh⟩
  · have hi : i < 2 ^ 16 := of_decide_eq_true (wellFormed_of_assemble hw)
    exact ⟨hi, _, decode_of_assemble hw (assemble_rdreg hi), Nat.mod_eq_of_lt hi⟩
  · have hn : n < 2 ^ 40 := of_decide_eq_true (wellFormed_of_assemble hw)
    have hword : BitVec.ofNat 40 n = w := Option.some.inj ((assemble_word hn).symm.trans hw)
    exact ⟨hn, hword ▸ Nat.mod_eq_of_lt hn⟩

theorem assemble_expand_addv {α : Type} (hash32 : α → Hash) (value : α) :
    (Pseudo.expand hash32 (.addv value)).assemble = some (encode (.add (hash32 value))) := by
  rw [Pseudo.expand, assemble_add (hash32 value).isLt, BitVec.ofNat_toNat, BitVec.setWidth_eq]

/-- Settles O8: each expansion is a line whose encoding is known. -/
theorem pseudoInstructionsExpand : Obligations.PseudoInstructionsExpand := by
  refine ⟨fun α => assemble_expand_addv, fun hash32 hmoros => ?_, fun α hash32 v hv => assemble_init hv,
    fun α hash32 => assemble_est, fun α hash32 => assemble_cnt⟩
  rw [assemble_expand_addv, hmoros]
  rfl

end Sys2Proof
end

section
/-! Bit extraction (`40_helpers.md` R80, R81), and the index and remainder of a hash, which are cut out by it (R86). -/

namespace Sys2Proof.Machine

/-! ### `top_bits` and `bottom_bits` -/

theorem topBits_eq_div (v : Hash) (n : Fin 33) : topBits v n = v.toNat / 2 ^ (32 - n.val) :=
  Nat.shiftRight_eq_div_pow _ _

theorem bottomBits_eq_mod (v : Hash) (n : Fin 33) : bottomBits v n = v.toNat % 2 ^ n.val :=
  Nat.and_two_pow_sub_one_eq_mod _ _

/-- The two widths `n` and `32 - n` make up the whole word. -/
theorem two_pow_mul_two_pow_sub {n : Nat} (hn : n ≤ 32) : 2 ^ n * 2 ^ (32 - n) = 2 ^ 32 := by
  rw [← pow_add, Nat.add_sub_cancel' hn]

theorem topBits_lt (v : Hash) (n : Fin 33) : topBits v n < 2 ^ n.val := by
  have hn : n.val ≤ 32 := Nat.le_of_lt_succ n.isLt
  rw [topBits_eq_div, Nat.div_lt_iff_lt_mul (by positivity), two_pow_mul_two_pow_sub hn]
  exact v.isLt

/-- R80: the top bits are the slice `v[31:32-n]`, which no bit above cuts off. -/
theorem topBits_eq_extractLsb' (v : Hash) (n : Fin 33) :
    topBits v n = (v.extractLsb' (32 - n.val) n.val).toNat := by
  rw [BitVec.extractLsb'_toNat]
  exact (Nat.mod_eq_of_lt (topBits_lt v n)).symm

/-- R81: the bottom bits are the slice `v[n-1:0]`. -/
theorem bottomBits_eq_extractLsb' (v : Hash) (n : Fin 33) :
    bottomBits v n = (v.extractLsb' 0 n.val).toNat := by
  rw [BitVec.extractLsb'_toNat, Nat.shiftRight_zero, bottomBits_eq_mod]

/-- Settles O25: each extraction as arithmetic and as a slice; the two ends are cases of the arithmetic. -/
theorem bitExtractionMeaning : Obligations.BitExtractionMeaning := by
  refine ⟨fun v n => ⟨topBits_eq_div v n, topBits_lt v n, topBits_eq_extractLsb' v n, bottomBits_eq_mod v n,
    bottomBits_eq_extractLsb' v n⟩, fun v => ⟨?_, ?_, ?_, ?_⟩, rfl, rfl⟩
  · exact (topBits_eq_div v 0).trans (Nat.div_eq_of_lt v.isLt)
  · exact (topBits_eq_div v 32).trans (Nat.div_one _)
  · exact (bottomBits_eq_mod v 0).trans (Nat.mod_one _)
  · exact (bottomBits_eq_mod v 32).trans (Nat.mod_eq_of_lt v.isLt)

/-! ### Index and remainder -/

theorem index_eq_div (h : Hash) (p : Precision) : index h p = h.toNat / 2 ^ (32 - p.toNat) :=
  topBits_eq_div h (indexWidth p)

/-- R86: the remainder is the low `32 - p` bits of the hash. -/
theorem remainder_eq_setWidth (h : Hash) (p : Precision) : remainder h p = h.setWidth (32 - p.toNat) := by
  apply BitVec.eq_of_toNat_eq
  rw [remainder, bottomBits_eq_mod, BitVec.toNat_ofNat, BitVec.toNat_setWidth]
  exact Nat.mod_mod _ _

theorem toNat_remainder (h : Hash) (p : Precision) : (remainder h p).toNat = h.toNat % 2 ^ (32 - p.toNat) := by
  rw [remainder_eq_setWidth, BitVec.toNat_setWidth]

/-- Settles O26: the index is a quotient and the remainder is the remainder of the same division. -/
theorem indexAndRemainderPartitionHash : Obligations.IndexAndRemainderPartitionHash := by
  refine ⟨fun h p _ _ => ⟨index_eq_div h p, index_lt h p, toNat_remainder h p, ?_⟩, rfl, rfl⟩
  rw [index_eq_div, toNat_remainder, Nat.mul_comm, Nat.div_add_mod]

end Sys2Proof.Machine
end

section
/-! Counting zeros (`40_helpers.md` R84, R85): the trailing count is fixed by the bits below it and the bit at it, and
the leading count is the trailing count of the reversed vector. -/

namespace Sys2Proof.Machine

variable {w : Nat} {x : BitVec w} {k : Nat}

/-! ### Trailing zeros -/

/-- R84: below the width, the count is the place of the lowest set bit. -/
theorem ctz_eq_iff (hk : k < w) :
    ctz x = k ↔ x.getLsbD k = true ∧ ∀ j, j < k → x.getLsbD j = false := by
  have hfind : ctz x = k ↔ (List.range w).find? (fun i => x.getLsbD i) = some k := by
    unfold ctz
    cases (List.range w).find? (fun i => x.getLsbD i) with
    | none => simp [hk.ne']
    | some i => simp
  rw [hfind, List.find?_range_eq_some]
  simp [hk]

/-- R84: the count is the width exactly when no bit is set. -/
theorem ctz_eq_width_iff : ctz x = w ↔ ∀ j, j < w → x.getLsbD j = false := by
  have hfind : ctz x = w ↔ (List.range w).find? (fun i => x.getLsbD i) = none := by
    unfold ctz
    cases hf : (List.range w).find? (fun i => x.getLsbD i) with
    | none => simp
    | some i => simpa using (List.mem_range.mp (List.mem_of_find?_eq_some hf)).ne
  rw [hfind, List.find?_range_eq_none]
  simp

theorem getLsbD_ctz (h : ctz x < w) : x.getLsbD (ctz x) = true := ((ctz_eq_iff h).mp rfl).1

theorem getLsbD_of_lt_ctz (h : k < ctz x) : x.getLsbD k = false := by
  rcases (ctz_le x).lt_or_eq with hlt | heq
  · exact ((ctz_eq_iff hlt).mp rfl).2 k h
  · exact ctz_eq_width_iff.mp heq k (heq ▸ h)

theorem ctz_zero (w : Nat) : ctz (0 : BitVec w) = w := ctz_eq_width_iff.mpr fun _ _ => BitVec.getLsbD_zero

theorem ctz_lt (hx : x ≠ 0) : ctz x < w := by
  refine (ctz_le x).lt_of_ne fun heq => hx (BitVec.eq_of_getLsbD_eq fun i hi => ?_)
  rw [ctz_eq_width_iff.mp heq i hi]
  exact BitVec.getLsbD_zero.symm

/-- The count is at least `k` exactly when the `k` lowest bits are 0. -/
theorem le_ctz_iff (hk : k ≤ w) : k ≤ ctz x ↔ ∀ j, j < k → x.getLsbD j = false := by
  refine ⟨fun h j hj => getLsbD_of_lt_ctz (hj.trans_le h), fun h => ?_⟩
  by_contra! hlt
  exact absurd (getLsbD_ctz (hlt.trans_le hk)) (Bool.eq_false_iff.mp (h _ hlt))

/-- A power of two divides a vector exactly when the bits below it are 0. -/
theorem two_pow_dvd_toNat_iff : 2 ^ k ∣ x.toNat ↔ ∀ j, j < k → x.getLsbD j = false := by
  rw [Nat.dvd_iff_mod_eq_zero]
  constructor
  · intro h j hj
    have hbit := Nat.testBit_mod_two_pow x.toNat k j
    simpa [h, hj, BitVec.testBit_toNat] using hbit.symm
  · intro h
    refine Nat.eq_of_testBit_eq fun j => ?_
    rw [Nat.testBit_mod_two_pow, Nat.zero_testBit]
    by_cases hj : j < k
    · simp [hj, BitVec.testBit_toNat, h j hj]
    · simp [hj]

theorem two_pow_dvd_toNat_iff_le_ctz (hk : k ≤ w) : 2 ^ k ∣ x.toNat ↔ k ≤ ctz x :=
  two_pow_dvd_toNat_iff.trans (le_ctz_iff hk).symm

/-- Settles O27: the lowest set bit, and by it the powers of two that divide. -/
theorem ctzIsLeastSetBit : Obligations.CtzIsLeastSetBit := by
  refine ⟨fun w x _ => ⟨ctz_le x, fun hx => hx ▸ ctz_zero w, fun hx => ?_⟩, by decide⟩
  exact ⟨getLsbD_ctz (ctz_lt hx), fun _ => getLsbD_of_lt_ctz,
    (two_pow_dvd_toNat_iff_le_ctz (ctz_le x)).mpr le_rfl, fun _ hk => (two_pow_dvd_toNat_iff_le_ctz hk).mp⟩

/-! ### Leading zeros -/

/-- R85: the bits of the reversed vector. -/
theorem getLsbD_rev (x : BitVec w) {i : Nat} (hi : i < w) : (rev x).getLsbD i = x.getLsbD (w - 1 - i) := by
  rw [rev, BitVec.getLsbD_reverse, BitVec.getMsbD_eq_getLsbD, decide_eq_true hi, Bool.true_and]

theorem rev_rev (x : BitVec w) : rev (rev x) = x := BitVec.reverse_reverse_eq

/-- Searching the bits downwards is searching the reversed vector's bits upwards. -/
theorem find?_reverse_range (x : BitVec w) :
    (List.range w).reverse.find? (fun k => x.getLsbD k) =
      ((List.range w).find? fun k => (rev x).getLsbD k).map fun k => w - 1 - k := by
  have hreverse : (List.range w).reverse = (List.range w).map fun k => w - 1 - k := by
    simpa [List.range_eq_range'] using List.reverse_range' (s := 0) (n := w)
  have hbits : ∀ k ∈ List.range w, x.getLsbD (w - 1 - k) = (rev x).getLsbD k :=
    fun k hk => (getLsbD_rev x (List.mem_range.mp hk)).symm
  rw [hreverse, List.find?_map]
  exact congrArg _ (List.find?_congr hbits)

/-- R85: the leading zeros are the trailing zeros of the reversed vector. -/
theorem clz_eq_ctz_rev (x : BitVec w) : clz x = ctz (rev x) := by
  unfold clz ctz
  rw [find?_reverse_range]
  cases hf : (List.range w).find? (fun k => (rev x).getLsbD k) with
  | none => rfl
  | some k =>
    have hk : k < w := List.mem_range.mp (List.mem_of_find?_eq_some hf)
    simp only [Option.map_some, Option.getD_some]
    omega

theorem clz_zero (w : Nat) : clz (0 : BitVec w) = w := by
  rw [clz_eq_ctz_rev, ctz_eq_width_iff]
  intro j hj
  rw [getLsbD_rev _ hj]
  exact BitVec.getLsbD_zero

/-- R85: the greatest set bit fixes the count of leading zeros. -/
theorem clz_eq_of_greatest (hk : k < w) (hset : x.getLsbD k = true)
    (habove : ∀ j, k < j → x.getLsbD j = false) : clz x = w - 1 - k := by
  rw [clz_eq_ctz_rev, ctz_eq_iff (by omega)]
  refine ⟨?_, fun j hj => ?_⟩
  · rwa [getLsbD_rev x (by omega), show w - 1 - (w - 1 - k) = k by omega]
  · rw [getLsbD_rev x (by omega)]
    exact habove _ (by omega)

/-- Settles O28: the trailing count is the leading count of the reversed vector, as reversing twice is no change. -/
theorem ctzIsClzOfReversed : Obligations.CtzIsClzOfReversed := by
  refine ⟨fun w x _ => ?_, fun w x i => getLsbD_rev x, fun w x _ => ⟨fun hx => hx ▸ clz_zero w, ?_⟩,
    by decide, by decide⟩
  · rw [clz_eq_ctz_rev, rev_rev]
  · exact fun k => clz_eq_of_greatest

end Sys2Proof.Machine
end

section
/-! The rank of a hash (`40_helpers.md` R87) by the hash's own bits, the corner cases of a hash (`42_add.md` section 3)
and the maximum of two bytes (R88). -/

namespace Sys2Proof.Machine

/-! ### The rank -/

/-- R86: the bits of the remainder are the hash's own. -/
theorem getLsbD_remainder (h : Hash) {p : Precision} {j : Nat} (hj : j < 32 - p.toNat) :
    (remainder h p).getLsbD j = h.getLsbD j := by
  rw [remainder_eq_setWidth, BitVec.getLsbD_setWidth, decide_eq_true hj, Bool.true_and]

/-- R87: rank `k + 1` is bit `k` being the lowest set one. -/
theorem rank_eq_succ_iff {h : Hash} {p : Precision} {k : Nat} (hk : k < 32 - p.toNat) :
    rank h p = k + 1 ↔ h.getLsbD k = true ∧ ∀ j, j < k → h.getLsbD j = false := by
  have hbelow : (∀ j, j < k → (remainder h p).getLsbD j = false) ↔ ∀ j, j < k → h.getLsbD j = false :=
    forall₂_congr fun j hj => by rw [getLsbD_remainder h (hj.trans hk)]
  rw [rank, Nat.add_right_cancel_iff, ctz_eq_iff hk, getLsbD_remainder h hk, hbelow]

/-- R87: the greatest rank is the whole remainder being 0. -/
theorem rank_eq_rankMax_iff {h : Hash} {p : Precision} :
    rank h p = Config.rankMax p.toNat ↔ ∀ j, j < 32 - p.toNat → h.getLsbD j = false := by
  have hmax : Config.rankMax p.toNat = 32 - p.toNat + 1 := by
    simp only [Config.rankMax]
    omega
  rw [rank, hmax, Nat.add_right_cancel_iff, ctz_eq_width_iff]
  exact forall₂_congr fun j hj => by rw [getLsbD_remainder h hj]

/-- Settles O29: the two characterisations, each through the bits of the remainder. -/
theorem rankCharacterisation : Obligations.RankCharacterisation := by
  refine ⟨fun h p _ _ => ⟨Nat.le_add_left .., rank_le h p, rfl, fun k hk hkp => ?_, rank_eq_rankMax_iff⟩, by decide⟩
  obtain ⟨k, rfl⟩ := Nat.exists_eq_add_of_le' hk
  exact rank_eq_succ_iff hkp

/-! ### Corner cases -/

theorem index_allOnes (p : Precision) : index (BitVec.allOnes 32) p = 2 ^ p.toNat - 1 := by
  have hp : p.toNat ≤ 32 := by omega
  rw [index_eq_div, BitVec.toNat_allOnes, ← two_pow_mul_two_pow_sub hp, Nat.mul_comm,
    Nat.mul_sub_div 0 _ _ (by positivity), Nat.zero_div]

/-- Settles O24: hash 0 has no set bit, and bit 0 of the hash of all ones is set. -/
theorem hashCornerCases : Obligations.HashCornerCases := by
  refine ⟨fun p hlo hhi => ⟨⟨?_, ?_⟩, ⟨index_allOnes p, ?_⟩, fun h => ?_⟩, ⟨rfl, by decide⟩, rfl, by decide⟩
  · exact (index_eq_div 0 p).trans (Nat.zero_div _)
  · exact rank_eq_rankMax_iff.mpr fun _ _ => BitVec.getLsbD_zero
  · exact (rank_eq_succ_iff (by omega)).mpr ⟨rfl, nofun⟩
  · have hle := rank_le h p
    simp only [Config.rankMax] at hle
    omega

/-! ### The maximum of two bytes -/

/-- R88: the greater as an unsigned number. -/
theorem toNat_maxByte (a b : Byte) : (maxByte a b).toNat = max a.toNat b.toNat := by
  unfold maxByte
  split
  · rename_i hba
    exact (max_eq_left (BitVec.le_def.mp hba)).symm
  · rename_i hba
    exact (max_eq_right (BitVec.lt_def.mp (BitVec.not_le.mp hba)).le).symm

/-- Settles O30: the laws of the maximum of natural numbers. -/
theorem maxByteLaws : Obligations.MaxByteLaws := by
  intro a b c
  refine ⟨toNat_maxByte a b, ?_, ?_, ?_, le_maxByte_left a b⟩ <;> apply BitVec.eq_of_toNat_eq
  · rw [toNat_maxByte, max_self]
  · rw [toNat_maxByte, toNat_maxByte, max_comm]
  · simp only [toNat_maxByte, max_assoc]

end Sys2Proof.Machine
end

section
/-! The checked register count (`40_helpers.md` R82) and the status `OVERFLOW` that its error would give
(`60_exceptions.md` R157): no command's answer carries it. -/

namespace Sys2Proof.Machine

theorem regcount_of_lt {q : Nat} (hq : q < 32) : regcount q = some (2 ^ q) := if_pos hq

theorem regcount_of_le {q : Nat} (hq : 32 ≤ q) : regcount q = none := if_neg (Nat.not_lt.mpr hq)

/-- A command other than `INIT` does not answer `OVERFLOW` on a configured block. -/
theorem exec_configured_status_ne_overflow {i : Instr} {s : State} {e : Estimator} (hi : ∀ v, i ≠ .init v)
    (hs : s.block = .configured e) :
    ∃ t r, exec i s = .next t ∧ t.responses = s.responses ++ [r] ∧ r.status ≠ .overflow := by
  cases i with
  | init v => exact absurd rfl (hi v)
  | add h => exact ⟨_, _, exec_add_configured hs h, rfl, nofun⟩
  | est => exact ⟨_, _, exec_est_configured hs, rfl, nofun⟩
  | cnt => exact ⟨_, _, exec_cnt_configured hs, rfl, nofun⟩
  | rdreg idx =>
    rcases Nat.lt_or_ge idx.toNat e.m with hidx | hidx
    · exact ⟨_, _, exec_rdreg_inRange hs hidx, rfl, nofun⟩
    · exact ⟨_, _, exec_rdreg_outOfRange hs hidx, rfl, nofun⟩

/-- R157: no command answers `OVERFLOW`, in any state. -/
theorem exec_status_ne_overflow (i : Instr) (s : State) :
    ∃ t r, exec i s = .next t ∧ t.responses = s.responses ++ [r] ∧ r.status ≠ .overflow := by
  by_cases hi : ∃ v, i = .init v
  · obtain ⟨v, rfl⟩ := hi
    by_cases hv : v.toNat < Config.pMin ∨ Config.pMax < v.toNat
    · exact ⟨_, _, exec_init_outOfRange hv s, rfl, nofun⟩
    · obtain ⟨hlo, hhi⟩ : Config.pMin ≤ v.toNat ∧ v.toNat ≤ Config.pMax := by omega
      exact ⟨_, _, exec_init_inRange hlo hhi s, rfl, nofun⟩
  · have hne : ∀ v, i ≠ .init v := not_exists.mp hi
    cases hs : s.block with
    | unconfigured => exact ⟨_, _, exec_unconfigured hne hs, rfl, nofun⟩
    | configured e => exact exec_configured_status_ne_overflow hne hs

/-- R157: no step appends an `OVERFLOW` answer. -/
theorem step_status_ne_overflow {s t : State} (h : step s = .next t) :
    ∃ new, t.responses = s.responses ++ new ∧ ∀ r ∈ new, r.status ≠ .overflow := by
  rcases step_cases h with ⟨-, rfl⟩ | ⟨_, -, rfl⟩ | ⟨_, _, _, -, -, rfl⟩ | ⟨_, i, rest, -, -, hx⟩
  · exact ⟨[], (List.append_nil _).symm, nofun⟩
  · exact ⟨[], (List.append_nil _).symm, nofun⟩
  · exact ⟨_, rfl, List.forall_mem_singleton.mpr nofun⟩
  · obtain ⟨u, r, hu, hresp, hne⟩ := exec_status_ne_overflow i { s with inputs := rest }
    cases hx.symm.trans hu
    exact ⟨[r], hresp, List.forall_mem_singleton.mpr hne⟩

/-- Settles O19: the count is checked, and the answers a step appends are known up to their status. -/
theorem overflowNeverProduced : Obligations.OverflowNeverProduced := by
  refine ⟨fun q => ⟨regcount_of_lt, regcount_of_le⟩, fun v _ hhi => regcount_of_lt (by omega), ?_, fun s => rfl⟩
  intro s t new hstep hnew
  obtain ⟨new', hnew', hne⟩ := step_status_ne_overflow hstep
  obtain rfl : new' = new := List.append_cancel_left (hnew'.symm.trans hnew)
  exact hne

end Sys2Proof.Machine
end

section
/-! Construction (`41_init.md` R100, R103): what `INIT` leaves and answers in range, out of range and at the boundary
values of R105. -/

namespace Sys2Proof.Machine

/-- Settles O16: the two cases of the range check; the stored precision is the low bits of the operand, and in range
they are the whole operand. -/
theorem initConstructsOrRefuses : Obligations.InitConstructsOrRefuses := by
  refine ⟨fun v s hlo hhi => ?_, fun v s hv => exec_init_outOfRange hv s, fun s => ?_⟩
  · have hp := toNat_setWidth_precision hhi
    have hlow : v.setWidth 5 = v.extractLsb' 0 5 := BitVec.setWidth_eq_extractLsb' (by decide)
    exact ⟨_, _, exec_init_inRange hlo hhi s, rfl, rfl, hlow, hp, (length_cells _).trans (congrArg (2 ^ ·) hp),
      read_cleared⟩
  · exact ⟨_, exec_init_inRange (by decide) (by decide) s, rfl, cells_cleared 4⟩

/-- R105: the answer carries the number given, which is not clamped, wrapped or reduced first. -/
theorem exec_init_ofNat_outOfRange {n : ℕ} (hlt : n < 2 ^ 32) (hn : n < Config.pMin ∨ Config.pMax < n) (s : State) :
    exec (.init (BitVec.ofNat 32 n)) s = .next (s.respond .invalidPrecision (BitVec.ofNat 64 n)) := by
  have hv : (BitVec.ofNat 32 n).toNat = n := by rw [BitVec.toNat_ofNat, Nat.mod_eq_of_lt hlt]
  have hdata : (BitVec.ofNat 32 n).setWidth 64 = BitVec.ofNat 64 n := by rw [← BitVec.ofNat_toNat, hv]
  rw [exec_init_outOfRange (hv.symm ▸ hn), State.raise, ErrorCause.response, hdata]

/-- Settles O18: each of the six values fails the range check as it stands, and both ends of the range pass it. -/
theorem initBoundaryValues : Obligations.InitBoundaryValues := by
  have hout : ∀ n ∈ [3, 17, 0, 20, 4294967295, 36], n < 2 ^ 32 ∧ (n < Config.pMin ∨ Config.pMax < n) := by decide
  refine ⟨fun n hn s => exec_init_ofNat_outOfRange (hout n hn).1 (hout n hn).2 s, fun s => ?_, fun s => ?_⟩
  · exact ⟨_, _, exec_init_inRange (by decide) (by decide) s, rfl, rfl⟩
  · exact ⟨_, _, exec_init_inRange (by decide) (by decide) s, rfl, rfl⟩

end Sys2Proof.Machine
end

section
/-! The numbers of binary64 (`43_estimate.md` R121, R122): rounding gives one, and scaling one by a power of two needs
no rounding. -/

namespace Sys2Proof.Machine

/-- A positive number of at most 53 significant bits, which is what R121 rounds to. -/
def IsBinary64 (x : ℚ) : Prop := ∃ (n : ℕ) (k : ℤ), 0 < n ∧ n < 2 ^ 53 ∧ x = n * (2 : ℚ) ^ k

theorem isBinary64_zpow (k : ℤ) : IsBinary64 ((2 : ℚ) ^ k) := ⟨1, k, one_pos, by norm_num, by simp⟩

theorem IsBinary64.rn64_eq {x : ℚ} (hx : IsBinary64 x) : rn64 x = x := by
  obtain ⟨n, k, hpos, hlt, rfl⟩ := hx
  exact rn64_natCast_mul_zpow hpos hlt k

theorem IsBinary64.mul_zpow {x : ℚ} (hx : IsBinary64 x) (j : ℤ) : IsBinary64 (x * (2 : ℚ) ^ j) := by
  obtain ⟨n, k, hpos, hlt, rfl⟩ := hx
  exact ⟨n, k + j, hpos, hlt, by rw [mul_assoc, zpow_add₀ two_ne_zero]⟩

/-- R130: scaling by a power of two and multiplying with the reciprocal of another round nothing. -/
theorem IsBinary64.scaled_mul_reciprocal {x : ℚ} (hx : IsBinary64 x) (n : ℕ) :
    rn64 (rn64 (x * 2 ^ (2 * n)) * rn64 (1 / 2 ^ n)) = x * 2 ^ n := by
  have hrecip : rn64 (1 / 2 ^ n) = (2 : ℚ) ^ (-(n : ℤ)) := by
    rw [← rn64_zpow, zpow_neg, zpow_natCast, one_div]
  have hexp : ((2 * n : ℕ) : ℤ) + -(n : ℤ) = n := by omega
  rw [hrecip, ← zpow_natCast 2 (2 * n), (hx.mul_zpow _).rn64_eq, mul_assoc, ← zpow_add₀ two_ne_zero, hexp,
    (hx.mul_zpow _).rn64_eq, zpow_natCast]

theorem rn64_pos {q : ℚ} (hq : 0 < q) : 0 < rn64 q :=
  (zpow_pos two_pos _).trans_le (zpow_le_rn64 (zpow_exponentOf_le hq))

theorem zpow_exponentOf_succ (q : ℚ) : (2 : ℚ) ^ (exponentOf q + 1) = 2 ^ 53 * unitOf q := by
  rw [unitOf, ← zpow_natCast, ← zpow_add₀ two_ne_zero]
  congr 1
  push_cast
  ring

/-- The rounded value is a positive number of units; `2^53` of them are a power of two. -/
theorem isBinary64_rn64 {q : ℚ} (hq : 0 < q) : IsBinary64 (rn64 q) := by
  have hu := unitOf_pos q
  obtain ⟨n, hn⟩ : ∃ n : ℤ, rn64 q = n * unitOf q :=
    (rn64_cases q).elim (fun h => ⟨_, h⟩) fun h => ⟨⌊q / unitOf q⌋ + 1, by rw [h, Int.cast_add, Int.cast_one]⟩
  have hpos : 0 < (n : ℚ) := pos_of_mul_pos_left (hn ▸ rn64_pos hq) hu.le
  have hle : (n : ℚ) ≤ 2 ^ 53 := by
    have hround := rn64_le_zpow hq (lt_zpow_exponentOf q).le
    rw [hn, zpow_exponentOf_succ] at hround
    exact le_of_mul_le_mul_right hround hu
  rcases hle.lt_or_eq with hlt | heq
  · lift n to ℕ using mod_cast hpos.le
    exact ⟨n, exponentOf q - 52, mod_cast hpos, mod_cast hlt, hn⟩
  · rw [hn, heq, ← zpow_exponentOf_succ]
    exact isBinary64_zpow _

/-- R122: bits 62:52 of the pattern. -/
theorem exponentField_bits64 (x : ℚ) : (bits64 x).extractLsb' 52 11 = BitVec.ofInt 11 (exponentOf x + 1023) := by
  rw [bits64, BitVec.extractLsb'_append_eq_of_le le_rfl, BitVec.extractLsb'_append_eq_of_add_le (by decide),
    BitVec.extractLsb'_eq_self]

/-- R122: the biased exponent of a number in the normal range is not 0. -/
theorem bits64_ne_zero {x : ℚ} (hlo : (2 : ℚ) ^ (-1022 : ℤ) ≤ x) (hhi : x < (2 : ℚ) ^ (1024 : ℤ)) : bits64 x ≠ 0 := by
  have hx : 0 < x := (zpow_pos two_pos _).trans_le hlo
  have hexp : -1022 ≤ exponentOf x := (le_exponentOf_iff hx).mpr hlo
  have hexp' : exponentOf x < 1024 := by
    rw [← not_le, le_exponentOf_iff hx]
    exact not_le.mpr hhi
  intro hzero
  have hfield : BitVec.ofInt 11 (exponentOf x + 1023) = 0 := by
    rw [← exponentField_bits64, hzero]
    rfl
  have hnat : (BitVec.ofInt 11 (exponentOf x + 1023)).toNat = 0 := congrArg BitVec.toNat hfield
  rw [BitVec.toNat_ofInt] at hnat
  omega

end Sys2Proof.Machine
end

section
/-! The estimate of a fresh estimator (`43_estimate.md` R130): every operation after alpha is exact. -/

namespace Sys2Proof.Machine

/-! ### Alpha -/

/-- R124: the divisor of the formula branch lies between 1 and 2. -/
theorem alphaDivisor_bounds {m : ℕ} (hm : 128 ≤ m) :
    1 ≤ rn64 (1 + rn64 (rn64 (1079 / 1000) / m)) ∧ rn64 (1 + rn64 (rn64 (1079 / 1000) / m)) ≤ 2 := by
  have hm' : (2 : ℚ) ≤ m := mod_cast (by decide : 2 ≤ 128).trans hm
  have hc : 0 < rn64 (1079 / 1000) := rn64_pos (by norm_num)
  have hc' : rn64 (1079 / 1000) ≤ 2 := rn64_le_zpow (k := 1) (by norm_num) (by norm_num)
  have hquot : 0 < rn64 (1079 / 1000) / m := div_pos hc (two_pos.trans_le hm')
  have ht : 0 < rn64 (rn64 (1079 / 1000) / m) := rn64_pos hquot
  have ht' : rn64 (rn64 (1079 / 1000) / m) ≤ 1 :=
    rn64_le_zpow (k := 0) hquot (div_le_one_of_le₀ (hc'.trans hm') (Nat.cast_nonneg m))
  exact ⟨zpow_le_rn64 (k := 0) (le_add_of_nonneg_right ht.le),
    rn64_le_zpow (k := 1) (add_pos one_pos ht) (by linarith)⟩

/-- R124: every branch of alpha ends with a rounding, of a number between `1/4` and 1. -/
theorem alpha64_eq_rn64 (m : ℕ) : ∃ q, alpha64 m = rn64 q ∧ 1 / 4 ≤ q ∧ q ≤ 1 := by
  unfold alpha64
  split
  · exact ⟨_, rfl, by norm_num, by norm_num⟩
  · split
    · exact ⟨_, rfl, by norm_num, by norm_num⟩
    · split
      · exact ⟨_, rfl, by norm_num, by norm_num⟩
      · next hm =>
        obtain ⟨hu, hu'⟩ := alphaDivisor_bounds (not_lt.mp hm)
        have hk : (2 : ℚ) ^ (-1 : ℤ) ≤ rn64 (7213 / 10000) := zpow_le_rn64 (by norm_num)
        have hk' : rn64 (7213 / 10000) ≤ 1 := rn64_le_zpow (k := 0) (by norm_num) (by norm_num)
        refine ⟨_, rfl, ?_, div_le_one_of_le₀ (hk'.trans hu) (zero_le_one.trans hu)⟩
        rw [le_div_iff₀ (one_pos.trans_le hu)]
        linarith

theorem isBinary64_alpha64 (m : ℕ) : IsBinary64 (alpha64 m) := by
  obtain ⟨q, hq, hlo, -⟩ := alpha64_eq_rn64 m
  exact hq ▸ isBinary64_rn64 (by linarith)

theorem alpha64_bounds (m : ℕ) : (2 : ℚ) ^ (-2 : ℤ) ≤ alpha64 m ∧ alpha64 m ≤ 1 := by
  obtain ⟨q, hq, hlo, hhi⟩ := alpha64_eq_rn64 m
  rw [hq]
  exact ⟨zpow_le_rn64 (by norm_num [hlo]), rn64_le_zpow (k := 0) (by linarith) hhi⟩

/-! ### The estimate and the reads -/

section
variable {p : Precision} (hlo : Config.pMin ≤ p.toNat) (hhi : p.toNat ≤ Config.pMax)
include hlo hhi

/-- R130: every term is 1, so the sum is the count. -/
theorem sum64_cells_cleared : sum64 (Estimator.cells ⟨p, RegFile.cleared⟩) = 2 ^ p.toNat := by
  have hinv := cleared_inv hlo hhi
  rw [sum64_eq_sumExact (fun r hr => mem_cells_le_29 hinv hr) (length_cells_le hinv), cells_cleared]
  simp [sumExact, cellTerm]

theorem estimate_cleared :
    Estimator.estimate ⟨p, RegFile.cleared⟩ = alpha64 (2 ^ p.toNat) * 2 ^ p.toNat := by
  simp only [Estimator.estimate, estimate64, Config.regCount, sum64_cells_cleared hlo hhi]
  exact (isBinary64_alpha64 _).scaled_mul_reciprocal p.toNat

end

/-- R130: the estimate of a fresh estimator is in the normal range. -/
theorem bits64_alpha64_mul_ne_zero {n : ℕ} (hn : n ≤ 16) : bits64 (alpha64 (2 ^ n) * 2 ^ n) ≠ 0 := by
  obtain ⟨halpha, halpha'⟩ := alpha64_bounds (2 ^ n)
  have hpow : (1 : ℚ) ≤ 2 ^ n := one_le_pow₀ one_le_two
  have hpow' : (2 : ℚ) ^ n ≤ 2 ^ 16 := pow_le_pow_right₀ one_le_two hn
  refine bits64_ne_zero ?_ ?_
  · calc (2 : ℚ) ^ (-1022 : ℤ) ≤ (2 : ℚ) ^ (-2 : ℤ) := zpow_le_zpow_right₀ one_le_two (by decide)
      _ ≤ alpha64 (2 ^ n) := halpha
      _ ≤ alpha64 (2 ^ n) * 2 ^ n := le_mul_of_one_le_right ((zpow_pos two_pos _).le.trans halpha) hpow
  · calc alpha64 (2 ^ n) * 2 ^ n ≤ 1 * 2 ^ 16 := mul_le_mul halpha' hpow' (zero_le_one.trans hpow) zero_le_one
      _ < (2 : ℚ) ^ (1024 : ℤ) := by
        rw [one_mul]
        exact zpow_lt_zpow_right₀ (m := 16) one_lt_two (by decide)

/-- Settles O17: the reads of a configured block, on the estimator `INIT` leaves. -/
theorem freshEstimatorReads : Obligations.FreshEstimatorReads := by
  intro v s hlo hhi
  have hp := toNat_setWidth_precision hhi
  have hblock : ((s.construct (v.setWidth 5)).respond .ok 0).block = .configured ⟨v.setWidth 5, RegFile.cleared⟩ := rfl
  have hm : Estimator.m ⟨v.setWidth 5, RegFile.cleared⟩ = 2 ^ v.toNat := congrArg (2 ^ ·) hp
  have hest := estimate_cleared (p := v.setWidth 5) (hp.symm ▸ hlo) (hp.symm ▸ hhi)
  rw [hp] at hest
  exact ⟨_, _, exec_init_inRange hlo hhi s, hm ▸ exec_cnt_configured hblock,
    fun idx hidx => exec_rdreg_inRange hblock (hm.symm ▸ hidx), exec_est_configured hblock, congrArg bits64 hest,
    hest ▸ bits64_alpha64_mul_ne_zero hhi⟩

end Sys2Proof.Machine
end

section
/-! Adding hashes to an estimator (`42_add.md` R110 to R114): the cells afterwards, and that a hash whose rank its cell
already reaches changes nothing. -/

namespace Sys2Proof.Machine

/-! ### One hash -/

theorem addHash_wf {e : Estimator} (he : RegFile.wf e.regs) (h : Hash) : RegFile.wf (e.addHash h).regs :=
  write_wf he _ _

/-- R110: the cell of the hash's index is raised to the hash's rank. -/
theorem toNat_read_addHash_self {e : Estimator} (he : RegFile.wf e.regs) (h : Hash) :
    (RegFile.read (e.addHash h).regs (index h e.p)).toNat =
      max (RegFile.read e.regs (index h e.p)).toNat (rank h e.p) := by
  rw [Estimator.addHash, writeCell_regs, read_write_self he, toNat_maxByte, toNat_rankByte]

/-- R110: any cell after adding a hash. -/
theorem toNat_read_addHash {e : Estimator} (he : RegFile.wf e.regs) (h : Hash) (i : Nat) :
    (RegFile.read (e.addHash h).regs i).toNat =
      if index h e.p = i then max (RegFile.read e.regs i).toNat (rank h e.p) else (RegFile.read e.regs i).toNat := by
  split
  · rename_i hi
    subst hi
    exact toNat_read_addHash_self he h
  · rename_i hi
    rw [read_addHash_other e h (Ne.symm hi)]

/-- Estimators in canonical form are equal when their precisions and their cells are. -/
theorem estimator_ext {a b : Estimator} (ha : RegFile.wf a.regs) (hb : RegFile.wf b.regs) (hp : a.p = b.p)
    (hread : ∀ i, (RegFile.read a.regs i).toNat = (RegFile.read b.regs i).toNat) : a = b := by
  have hregs : a.regs = b.regs := wf_ext ha hb fun i => BitVec.eq_of_toNat_eq (hread i)
  cases a
  cases b
  exact congrArg₂ Estimator.mk hp hregs

/-- R114: the order of two hashes does not matter, since the maximum is commutative and associative (R88). -/
theorem addHash_comm {e : Estimator} (he : RegFile.wf e.regs) (h₁ h₂ : Hash) :
    (e.addHash h₁).addHash h₂ = (e.addHash h₂).addHash h₁ := by
  refine estimator_ext (addHash_wf (addHash_wf he h₁) h₂) (addHash_wf (addHash_wf he h₂) h₁) rfl fun i => ?_
  simp only [toNat_read_addHash (addHash_wf he _), toNat_read_addHash he, addHash_p]
  split_ifs
  · exact max_right_comm ..
  all_goals rfl

/-! ### A hash that has been counted -/

/-- The cell of `h` has reached the rank of `h`, in an estimator in canonical form. -/
def Estimator.Counted (h : Hash) (e : Estimator) : Prop :=
  RegFile.wf e.regs ∧ rank h e.p ≤ (RegFile.read e.regs (index h e.p)).toNat

theorem counted_addHash_self {e : Estimator} (he : RegFile.wf e.regs) (h : Hash) : (e.addHash h).Counted h :=
  ⟨addHash_wf he h, (toNat_read_addHash_self he h).symm ▸ le_max_right _ _⟩

/-- A counted hash stays counted, since adding another lowers no cell (R113). -/
theorem Estimator.Counted.addHash {h : Hash} {e : Estimator} (hc : e.Counted h) (h' : Hash) :
    (e.addHash h').Counted h :=
  ⟨addHash_wf hc.1 h', hc.2.trans (BitVec.le_def.mp (read_le_read_addHash hc.1 h' _))⟩

/-- R111, R112: adding a counted hash changes nothing. -/
theorem Estimator.Counted.addHash_eq {h : Hash} {e : Estimator} (hc : e.Counted h) : e.addHash h = e := by
  obtain ⟨he, hrank⟩ := hc
  refine estimator_ext (addHash_wf he h) he rfl fun i => ?_
  rw [toNat_read_addHash he]
  split
  · rename_i hi
    subst hi
    exact max_eq_left hrank
  · rfl

/-- R113: the hash's cell changes exactly when the rank is greater than what it holds. -/
theorem read_addHash_ne_iff {e : Estimator} (he : RegFile.wf e.regs) (h : Hash) :
    RegFile.read (e.addHash h).regs (index h e.p) ≠ RegFile.read e.regs (index h e.p) ↔
      (RegFile.read e.regs (index h e.p)).toNat < rank h e.p := by
  rw [ne_eq, ← BitVec.toNat_inj, toNat_read_addHash_self he, max_eq_left_iff, not_le]

/-! ### A list of hashes -/

/-- The estimator after adding the hashes of a list, the first one first. -/
def Estimator.addHashes (hs : List Hash) (e : Estimator) : Estimator := hs.foldl (fun e h => e.addHash h) e

@[simp] theorem addHashes_nil (e : Estimator) : e.addHashes [] = e := rfl

@[simp] theorem addHashes_cons (h : Hash) (hs : List Hash) (e : Estimator) :
    e.addHashes (h :: hs) = (e.addHash h).addHashes hs := rfl

@[simp] theorem addHashes_p (hs : List Hash) (e : Estimator) : (e.addHashes hs).p = e.p := by
  induction hs generalizing e with
  | nil => rfl
  | cons h hs ih => exact ih (e.addHash h)

theorem bucketMax_cons (p : Precision) (i : Nat) (h : Hash) (hs : List Hash) :
    bucketMax p i (h :: hs) = if index h p = i then max (rank h p) (bucketMax p i hs) else bucketMax p i hs := by
  by_cases hi : index h p = i
  · simp [bucketMax, hi]
  · simp [bucketMax, hi]

/-- R114: every cell is raised to the greatest rank of its bucket. -/
theorem toNat_read_addHashes (hs : List Hash) {e : Estimator} (he : RegFile.wf e.regs) (i : Nat) :
    (RegFile.read (e.addHashes hs).regs i).toNat = max (RegFile.read e.regs i).toNat (bucketMax e.p i hs) := by
  induction hs generalizing e with
  | nil => exact (Nat.max_zero _).symm
  | cons h hs ih =>
    rw [addHashes_cons, ih (addHash_wf he h), toNat_read_addHash he, bucketMax_cons, addHash_p]
    split
    · exact max_assoc ..
    · rfl

end Sys2Proof.Machine
end

section
/-! The command `ADD` (`42_add.md` R110 to R114), alone, in a list of `ADD`s, and among other commands. -/

namespace Sys2Proof.Machine

/-- Settles O20: the cell of the hash's index is raised, and the other cells are left as they were. -/
theorem addRaisesItsCell : Obligations.AddRaisesItsCell := by
  refine ⟨fun h s hs => exec_unconfigured (fun _ => nofun) hs, fun h s e hs he => ?_, fun s hs => ?_⟩
  · exact ⟨e.addHash h, exec_add_configured hs h, rfl, toNat_read_addHash_self he h,
      fun _ hj => read_addHash_other e h hj⟩
  · exact ⟨_, exec_add_configured hs _, by decide⟩

/-- Settles O21: what adding one hash does to its cell; a rank that is not greater is one already counted. -/
theorem addChangesCellExactlyWhenGreater : Obligations.AddChangesCellExactlyWhenGreater := by
  intro h s t e hs he ht
  cases (exec_add_configured hs h).symm.trans ht
  exact ⟨e.addHash h, rfl, read_le_read_addHash he h _, fun _ hj => read_addHash_other e h hj,
    read_addHash_ne_iff he h, fun hrank => Estimator.Counted.addHash_eq ⟨he, hrank⟩⟩

/-! ### Commands with no successful `INIT` among them -/

/-- On a configured block a command that is not a successful `INIT` changes the estimator by adding a hash, if at
all. -/
theorem exec_block_cases_of_kept {i : Instr} {s t : State} {e : Estimator} (hs : s.block = .configured e)
    (hi : ∀ v, i = .init v → v.toNat < 4 ∨ 16 < v.toNat) (ht : exec i s = .next t) :
    t.block = .configured e ∨ ∃ h, t.block = .configured (e.addHash h) := by
  rcases exec_block_cases ht with hb | ⟨v, rfl, hlo, hhi, -⟩ | ⟨h, e₀, -, he₀, hb⟩
  · exact .inl (hb.trans hs)
  · have hout := hi v rfl
    simp only [Config.pMin, Config.pMax] at hlo hhi
    omega
  · obtain rfl : e₀ = e := Block.configured.inj (he₀.symm.trans hs)
    exact .inr ⟨h, hb⟩

/-- What adding any hash keeps true of the estimator, commands with no successful `INIT` among them keep true. -/
theorem execAll_keeps {P : Estimator → Prop} (hP : ∀ e h, P e → P (e.addHash h)) {is : List Instr} {s t : State}
    {e : Estimator} (hs : s.block = .configured e) (he : P e)
    (his : ∀ v, .init v ∈ is → v.toNat < 4 ∨ 16 < v.toNat) (ht : execAll is s = .next t) :
    ∃ e', t.block = .configured e' ∧ P e' := by
  induction is generalizing s e with
  | nil =>
    cases ht
    exact ⟨e, hs, he⟩
  | cons i is ih =>
    obtain ⟨u, hu, -⟩ := exec_answers i s
    rw [execAll_cons hu] at ht
    have hrest : ∀ v, .init v ∈ is → v.toNat < 4 ∨ 16 < v.toNat := fun v hv => his v (List.mem_cons_of_mem i hv)
    rcases exec_block_cases_of_kept hs (fun v hv => his v (hv ▸ List.mem_cons_self)) hu with hb | ⟨h, hb⟩
    · exact ih hb he hrest ht
    · exact ih hb (hP e h he) hrest ht

/-- Settles O22: the first `ADD` counts the hash, the commands between leave it counted, and a counted hash changes
nothing. -/
theorem addIsIdempotent : Obligations.AddIsIdempotent := by
  intro h between s t u e hs he hbetween ht hu
  rw [execAll_cons (exec_add_configured hs h)] at ht
  obtain ⟨e', hte', hcounted⟩ := execAll_keeps (P := Estimator.Counted h) (fun _ h' hc => hc.addHash h') rfl
    (counted_addHash_self he h) hbetween ht
  cases (exec_add_configured hte' h).symm.trans hu
  rw [hcounted.addHash_eq]
  exact ⟨hte'.symm, _, exec_est_configured hte', exec_est_configured rfl⟩

/-! ### A list of `ADD`s -/

/-- R110: a list of `ADD`s adds its hashes in order and answers each with `OK`. -/
theorem execAll_adds (hs : List Hash) {s : State} {e : Estimator} (hb : s.block = .configured e) :
    execAll (hs.map .add) s = .next { s with
      block := .configured (e.addHashes hs)
      responses := s.responses ++ List.replicate hs.length ⟨.ok, 0⟩ } := by
  induction hs generalizing s e with
  | nil =>
    rw [addHashes_nil, ← hb, List.length_nil, List.replicate_zero, List.append_nil]
    rfl
  | cons h hs ih =>
    rw [List.map_cons, execAll_cons (exec_add_configured hb h), ih rfl, addHashes_cons, respond_responses,
      List.append_assoc]
    rfl

/-- Settles O23: two added hashes commute, and the cells that `INIT` leaves at 0 are raised to the maximum of their
bucket. -/
theorem addsGiveBucketMaximum : Obligations.AddsGiveBucketMaximum := by
  refine ⟨fun h₁ h₂ s t u e hs he ht hu => ?_, fun v hs s hlo hhi => ?_⟩
  · cases (execAll_adds [h₁, h₂] hs).symm.trans ht
    cases (execAll_adds [h₂, h₁] hs).symm.trans hu
    simp only [addHashes_cons, addHashes_nil, addHash_comm he h₁ h₂, List.length_cons]
  · refine ⟨_, _, (execAll_cons (exec_init_inRange hlo hhi s) _).trans (execAll_adds hs rfl), rfl, ?_, fun i _ => ?_⟩
    · rw [addHashes_p, toNat_setWidth_precision hhi]
    · rw [toNat_read_addHashes hs cleared_wf, addHashes_p, read_cleared]
      exact Nat.zero_max _

end Sys2Proof.Machine
end

section
/-! The parts of a positive number (`43_estimate.md` R121): its exponent, its units in the last place, and the
direction in which rounding takes it. -/

namespace Sys2Proof.Machine

/-! ### Exponent and units -/

theorem exponentOf_eq {q : ℚ} {e : ℤ} (hlo : (2 : ℚ) ^ e ≤ q) (hhi : q < (2 : ℚ) ^ (e + 1)) : exponentOf q = e := by
  have hq : 0 < q := (zpow_pos two_pos e).trans_le hlo
  have hge : e ≤ exponentOf q := (le_exponentOf_iff hq).mpr hlo
  have hlt : ¬ e + 1 ≤ exponentOf q := fun h => hhi.not_ge ((le_exponentOf_iff hq).mp h)
  omega

theorem zpow_eq_mul_zpow_sub (e : ℤ) (n : ℕ) : (2 : ℚ) ^ e = 2 ^ n * (2 : ℚ) ^ (e - n) := by
  rw [← zpow_natCast, ← zpow_add₀ two_ne_zero, add_sub_cancel]

theorem mul_unitOf_le {q : ℚ} (hq : 0 < q) : 2 ^ 52 * unitOf q ≤ q :=
  (zpow_eq_mul_zpow_sub (exponentOf q) 52).symm.trans_le (zpow_exponentOf_le hq)

/-- R121: the number of units has 53 bits before the point. -/
theorem floor_div_unitOf_bounds {q : ℚ} (hq : 0 < q) : 2 ^ 52 ≤ ⌊q / unitOf q⌋ ∧ ⌊q / unitOf q⌋ < 2 ^ 53 := by
  rw [Int.le_floor, Int.floor_lt, le_div_iff₀ (unitOf_pos q), div_lt_iff₀ (unitOf_pos q)]
  push_cast
  exact ⟨mul_unitOf_le hq, zpow_exponentOf_succ q ▸ lt_zpow_exponentOf q⟩

theorem floor_add_fract_mul_unitOf (q : ℚ) :
    (⌊q / unitOf q⌋ + Int.fract (q / unitOf q)) * unitOf q = q := by
  rw [Int.floor_add_fract, div_mul_cancel₀ _ (unitOf_pos q).ne']

/-! ### The direction of rounding -/

/-- R121: `RN64` takes the upper of the two multiples of the unit about `q`. -/
def RoundsUp (q : ℚ) : Prop :=
  1 / 2 < Int.fract (q / unitOf q) ∨ Int.fract (q / unitOf q) = 1 / 2 ∧ ⌊q / unitOf q⌋ % 2 = 1

theorem rn64_of_roundsUp {q : ℚ} (h : RoundsUp q) : rn64 q = (⌊q / unitOf q⌋ + 1) * unitOf q := by
  simp only [RoundsUp, Int.fract] at h
  simp only [rn64]
  rcases h with h | ⟨h, hodd⟩
  · rw [if_neg h.not_gt, if_pos h]
  · rw [if_neg h.not_lt, if_neg h.not_gt, if_neg (by omega)]

theorem rn64_of_not_roundsUp {q : ℚ} (h : ¬ RoundsUp q) : rn64 q = ⌊q / unitOf q⌋ * unitOf q := by
  simp only [RoundsUp, Int.fract, not_or, not_lt, not_and] at h
  obtain ⟨hle, htie⟩ := h
  simp only [rn64]
  rcases hle.lt_or_eq with hlt | heq
  · rw [if_pos hlt]
  · rw [if_neg heq.not_lt, if_neg heq.not_gt, if_pos (Int.emod_two_ne_one.mp (htie heq))]

/-- Settles O32: a fraction below one half does not round up, one above does, and a tie does when `n` is odd. -/
theorem roundingIsToNearestEven : Obligations.RoundingIsToNearestEven := by
  intro q e _ _ hlo hhi
  have hq : 0 < q := (zpow_pos two_pos e).trans_le hlo
  have hunit : (2 : ℚ) ^ (e - 52) = unitOf q := by rw [unitOf, exponentOf_eq hlo hhi]
  obtain ⟨hn, hn'⟩ := floor_div_unitOf_bounds hq
  rw [hunit]
  refine ⟨⌊q / unitOf q⌋, Int.fract (q / unitOf q), (Int.floor_add_fract _).symm, hn, hn', Int.fract_nonneg _,
    Int.fract_lt_one _, fun hr => rn64_of_not_roundsUp ?_, fun hr => rn64_of_roundsUp (.inl hr),
    fun hr heven => rn64_of_not_roundsUp ?_, fun hr hodd => rn64_of_roundsUp (.inr ⟨hr, hodd⟩)⟩
  · rintro (h | ⟨h, -⟩)
    · exact hr.not_gt h
    · exact hr.ne h
  · rintro (h | ⟨-, hodd⟩)
    · exact hr.not_gt h
    · omega

/-! ### Order, scaling and error -/

/-- R133: between two powers of two the number of units grows with the number, and so does its rounding. -/
theorem rn64_mono_of_exponentOf_eq {a b : ℚ} (hab : a ≤ b) (hexp : exponentOf a = exponentOf b) :
    rn64 a ≤ rn64 b := by
  have hunit : unitOf b = unitOf a := by rw [unitOf, unitOf, hexp]
  have hdiv : a / unitOf a ≤ b / unitOf b := by
    rw [hunit]
    exact div_le_div_of_nonneg_right hab (unitOf_pos a).le
  rcases (Int.floor_le_floor hdiv).lt_or_eq with hlt | heq
  · have hsucc : (⌊a / unitOf a⌋ : ℚ) + 1 ≤ ⌊b / unitOf b⌋ := mod_cast hlt
    calc rn64 a ≤ (⌊a / unitOf a⌋ + 1) * unitOf a := rn64_le_floor_succ_mul_unitOf a
      _ ≤ ⌊b / unitOf b⌋ * unitOf a := mul_le_mul_of_nonneg_right hsucc (unitOf_pos a).le
      _ = ⌊b / unitOf b⌋ * unitOf b := by rw [hunit]
      _ ≤ rn64 b := floor_mul_unitOf_le_rn64 b
  · by_cases ha : RoundsUp a
    · have hb : RoundsUp b := by
        have hfract : Int.fract (a / unitOf a) ≤ Int.fract (b / unitOf b) := by
          simpa only [Int.fract, heq] using sub_le_sub_right hdiv _
        rcases ha with h | ⟨h, hodd⟩
        · exact .inl (h.trans_le hfract)
        · exact (h ▸ hfract).lt_or_eq.imp id fun htie => ⟨Eq.symm htie, heq ▸ hodd⟩
      rw [rn64_of_roundsUp ha, rn64_of_roundsUp hb, heq, hunit]
    · rw [rn64_of_not_roundsUp ha, heq, ← hunit]
      exact floor_mul_unitOf_le_rn64 b

/-- R133: rounding is monotone; across a power of two, since it goes past none. -/
theorem rn64_mono {a b : ℚ} (ha : 0 < a) (hab : a ≤ b) : rn64 a ≤ rn64 b := by
  have hb := ha.trans_le hab
  have hexp : exponentOf a ≤ exponentOf b := (le_exponentOf_iff hb).mpr ((zpow_exponentOf_le ha).trans hab)
  rcases hexp.lt_or_eq with hlt | heq
  · calc rn64 a ≤ (2 : ℚ) ^ (exponentOf a + 1) := rn64_le_zpow ha (lt_zpow_exponentOf a).le
      _ ≤ (2 : ℚ) ^ exponentOf b := zpow_le_zpow_right₀ one_le_two hlt
      _ ≤ rn64 b := zpow_le_rn64 (zpow_exponentOf_le hb)
  · exact rn64_mono_of_exponentOf_eq hab heq

theorem unitOf_mul_zpow {q : ℚ} (hq : 0 < q) (k : ℤ) : unitOf (q * (2 : ℚ) ^ k) = unitOf q * (2 : ℚ) ^ k := by
  have hk : (0 : ℚ) < 2 ^ k := zpow_pos two_pos k
  have hexp : exponentOf (q * (2 : ℚ) ^ k) = exponentOf q + k := by
    refine exponentOf_eq ?_ ?_
    · rw [zpow_add₀ two_ne_zero]
      exact mul_le_mul_of_nonneg_right (zpow_exponentOf_le hq) hk.le
    · rw [add_right_comm, zpow_add₀ two_ne_zero]
      exact mul_lt_mul_of_pos_right (lt_zpow_exponentOf q) hk
  rw [unitOf, unitOf, hexp, ← zpow_add₀ two_ne_zero, add_sub_right_comm]

/-- R127: rounding commutes with scaling by a power of two, which leaves the number of units as it is. -/
theorem rn64_mul_zpow {q : ℚ} (hq : 0 < q) (k : ℤ) : rn64 (q * (2 : ℚ) ^ k) = rn64 q * (2 : ℚ) ^ k := by
  have hunit := unitOf_mul_zpow hq k
  have hdiv : q * (2 : ℚ) ^ k / unitOf (q * (2 : ℚ) ^ k) = q / unitOf q := by
    rw [hunit, mul_div_mul_right _ _ (zpow_pos two_pos k).ne']
  have hup : RoundsUp (q * (2 : ℚ) ^ k) ↔ RoundsUp q := by rw [RoundsUp, RoundsUp, hdiv]
  by_cases h : RoundsUp q
  · rw [rn64_of_roundsUp h, rn64_of_roundsUp (hup.mpr h), hdiv, hunit, mul_assoc]
  · rw [rn64_of_not_roundsUp h, rn64_of_not_roundsUp (mt hup.mp h), hdiv, hunit, mul_assoc]

/-- R121: rounding moves a number by at most half a unit. -/
theorem abs_rn64_sub_le_unitOf (q : ℚ) : |rn64 q - q| ≤ 1 / 2 * unitOf q := by
  have hu := unitOf_pos q
  have hq := floor_add_fract_mul_unitOf q
  have hfract := Int.fract_nonneg (q / unitOf q)
  have hfract' := Int.fract_lt_one (q / unitOf q)
  by_cases h : RoundsUp q
  · have hhalf : 1 / 2 ≤ Int.fract (q / unitOf q) := h.elim le_of_lt fun htie => htie.1.ge
    have herr : rn64 q - q = (1 - Int.fract (q / unitOf q)) * unitOf q := by
      rw [rn64_of_roundsUp h]
      linear_combination hq
    rw [herr, abs_of_nonneg (mul_nonneg (by linarith) hu.le)]
    exact mul_le_mul_of_nonneg_right (by linarith) hu.le
  · have hhalf : Int.fract (q / unitOf q) ≤ 1 / 2 := not_lt.mp fun hgt => h (.inl hgt)
    have herr : q - rn64 q = Int.fract (q / unitOf q) * unitOf q := by
      rw [rn64_of_not_roundsUp h]
      linear_combination -hq
    rw [abs_sub_comm, herr, abs_of_nonneg (mul_nonneg hfract hu.le)]
    exact mul_le_mul_of_nonneg_right hhalf hu.le

/-- R135: the relative error of one rounding. -/
theorem abs_rn64_sub_le {q : ℚ} (hq : 0 < q) : |rn64 q - q| ≤ (2 : ℚ) ^ (-53 : ℤ) * q := by
  calc |rn64 q - q| ≤ 1 / 2 * unitOf q := abs_rn64_sub_le_unitOf q
    _ = (2 : ℚ) ^ (-53 : ℤ) * (2 ^ 52 * unitOf q) := by norm_num; ring
    _ ≤ (2 : ℚ) ^ (-53 : ℤ) * q := mul_le_mul_of_nonneg_left (mul_unitOf_le hq) (by positivity)

end Sys2Proof.Machine
end

section
/-! The positive normal numbers (`43_estimate.md` R122): which they are, the fields of their bit patterns, and that the
patterns are ordered as the numbers are. -/

namespace Sys2Proof.Machine

/-! ### Exponent and significand -/

section
variable {n e : ℤ} (hlo : 2 ^ 52 ≤ n) (hhi : n < 2 ^ 53)
include hlo hhi

theorem exponentOf_significand : exponentOf (n * (2 : ℚ) ^ (e - 52)) = e := by
  have hu : (0 : ℚ) < 2 ^ (e - 52) := zpow_pos two_pos _
  refine exponentOf_eq ?_ ?_
  · calc (2 : ℚ) ^ e = 2 ^ 52 * (2 : ℚ) ^ (e - 52) := zpow_eq_mul_zpow_sub e 52
      _ ≤ n * (2 : ℚ) ^ (e - 52) := mul_le_mul_of_nonneg_right (mod_cast hlo) hu.le
  · calc n * (2 : ℚ) ^ (e - 52) < 2 ^ 53 * (2 : ℚ) ^ (e - 52) := mul_lt_mul_of_pos_right (mod_cast hhi) hu
      _ = (2 : ℚ) ^ (e + 1) := by
        rw [zpow_eq_mul_zpow_sub (e + 1) 53]
        congr 2
        push_cast
        ring

theorem floor_significand : ⌊n * (2 : ℚ) ^ (e - 52) / unitOf (n * (2 : ℚ) ^ (e - 52))⌋ = n := by
  rw [unitOf, exponentOf_significand hlo hhi, mul_div_cancel_right₀ _ (zpow_pos two_pos _).ne', Int.floor_intCast]

/-- R122: the three fields, from the top. -/
theorem bits64_significand : bits64 (n * (2 : ℚ) ^ (e - 52)) =
    (0 : BitVec 1) ++ BitVec.ofInt 11 (e + 1023) ++ BitVec.ofInt 52 (n - 2 ^ 52) := by
  rw [bits64, floor_significand hlo hhi, exponentOf_significand hlo hhi]

end

theorem toNat_ofInt_of_lt {w : ℕ} {i : ℤ} (hlo : 0 ≤ i) (hhi : i < 2 ^ w) : ((BitVec.ofInt w i).toNat : ℤ) = i := by
  have hmod : i % (2 ^ w : ℕ) = i := Int.emod_eq_of_lt hlo (mod_cast hhi)
  rw [BitVec.toNat_ofInt, hmod, Int.toNat_of_nonneg hlo]

theorem bits64_example : bits64 (rn64 (673 / 1000) * 16) = 0x402589374BC6A7F0 := by decide +kernel

/-- Settles O35: each field is cut out of the three that are appended, and is wide enough for its number. -/
theorem bitPatternFields : Obligations.BitPatternFields := by
  refine ⟨fun n e hlo hhi helo hehi => ?_, bits64_example⟩
  rw [bits64_significand hlo hhi]
  refine ⟨?_, ?_, ?_⟩
  · rw [BitVec.append_assoc]
    exact BitVec.extractLsb'_append_eq_left
  · rw [BitVec.extractLsb'_append_eq_of_le le_rfl, BitVec.extractLsb'_append_eq_right]
    exact toNat_ofInt_of_lt (by omega) (by omega)
  · rw [BitVec.extractLsb'_append_eq_right]
    exact toNat_ofInt_of_lt (by omega) (by omega)

/-! ### Which numbers are positive normal -/

theorem IsPositiveNormal.pos {x : ℚ} (hx : IsPositiveNormal x) : 0 < x := by
  obtain ⟨n, e, hlo, -, -, -, rfl⟩ := hx
  have hn : (0 : ℚ) < n := mod_cast (show (0 : ℤ) < n by omega)
  positivity

/-- A number that needs no rounding is the whole number of its units. -/
theorem IsBinary64.eq_floor_mul_unitOf {x : ℚ} (hx : IsBinary64 x) : x = ⌊x / unitOf x⌋ * unitOf x := by
  have hround := hx.rn64_eq
  by_cases h : RoundsUp x
  · have hlt : x < (⌊x / unitOf x⌋ + 1) * unitOf x := (div_lt_iff₀ (unitOf_pos x)).mp (Int.lt_floor_add_one _)
    rw [rn64_of_roundsUp h] at hround
    exact absurd hround hlt.ne'
  · rw [rn64_of_not_roundsUp h] at hround
    exact hround.symm

/-- R132: a binary64 number between powers of two of the normal range is normal. -/
theorem IsBinary64.isPositiveNormal {x : ℚ} (hx : IsBinary64 x) {j k : ℤ} (hj : -1022 ≤ j) (hk : k ≤ 1023)
    (hlo : (2 : ℚ) ^ j ≤ x) (hhi : x ≤ (2 : ℚ) ^ k) : IsPositiveNormal x := by
  have hpos : 0 < x := (zpow_pos two_pos j).trans_le hlo
  obtain ⟨hn, hn'⟩ := floor_div_unitOf_bounds hpos
  have hexp : j ≤ exponentOf x := (le_exponentOf_iff hpos).mpr hlo
  have hexp' : exponentOf x ≤ k :=
    (zpow_le_zpow_iff_right₀ one_lt_two).mp ((zpow_exponentOf_le hpos).trans hhi)
  exact ⟨_, exponentOf x, hn, hn', by omega, by omega, hx.eq_floor_mul_unitOf⟩

theorem isPositiveNormal_rn64 {q : ℚ} {j k : ℤ} (hj : -1022 ≤ j) (hk : k ≤ 1023) (hlo : (2 : ℚ) ^ j ≤ q)
    (hhi : q ≤ (2 : ℚ) ^ k) : IsPositiveNormal (rn64 q) := by
  have hq : 0 < q := (zpow_pos two_pos j).trans_le hlo
  exact (isBinary64_rn64 hq).isPositiveNormal hj hk (zpow_le_rn64 hlo) (rn64_le_zpow hq hhi)

/-! ### The order of the bit patterns -/

theorem toNat_append_eq_add {v w : ℕ} (x : BitVec v) (y : BitVec w) : (x ++ y).toNat = x.toNat * 2 ^ w + y.toNat := by
  rw [BitVec.toNat_append, ← Nat.shiftLeft_add_eq_or_of_lt y.isLt, Nat.shiftLeft_eq]

/-- R122: the pattern as a number. -/
theorem toNat_bits64 {x : ℚ} (hx : IsPositiveNormal x) :
    ((bits64 x).toNat : ℤ) = (exponentOf x + 1022) * 2 ^ 52 + ⌊x / unitOf x⌋ := by
  obtain ⟨n, e, hlo, hhi, helo, hehi, rfl⟩ := hx
  have hexp : ((BitVec.ofInt 11 (e + 1023)).toNat : ℤ) = e + 1023 := toNat_ofInt_of_lt (by omega) (by omega)
  have hfrac : ((BitVec.ofInt 52 (n - 2 ^ 52)).toNat : ℤ) = n - 2 ^ 52 := toNat_ofInt_of_lt (by omega) (by omega)
  rw [floor_significand hlo hhi, exponentOf_significand hlo hhi, bits64_significand hlo hhi, toNat_append_eq_add,
    toNat_append_eq_add, show (0 : BitVec 1).toNat = 0 from rfl]
  omega

/-- R133: the patterns of positive normal numbers are ordered as the numbers: by the exponent first. -/
theorem toNat_bits64_mono {x y : ℚ} (hx : IsPositiveNormal x) (hy : IsPositiveNormal y) (hxy : x ≤ y) :
    (bits64 x).toNat ≤ (bits64 y).toNat := by
  have hexp : exponentOf x ≤ exponentOf y :=
    (le_exponentOf_iff hy.pos).mpr ((zpow_exponentOf_le hx.pos).trans hxy)
  obtain ⟨-, hfloorx⟩ := floor_div_unitOf_bounds hx.pos
  obtain ⟨hfloory, -⟩ := floor_div_unitOf_bounds hy.pos
  have hbitsx := toNat_bits64 hx
  have hbitsy := toNat_bits64 hy
  rcases hexp.lt_or_eq with hlt | heq
  · omega
  · have hunit : unitOf x = unitOf y := by rw [unitOf, unitOf, heq]
    have hfloor : ⌊x / unitOf x⌋ ≤ ⌊y / unitOf y⌋ :=
      Int.floor_le_floor (hunit ▸ div_le_div_of_nonneg_right hxy (unitOf_pos x).le)
    omega

end Sys2Proof.Machine
end

section
/-! Alpha (`43_estimate.md` R123, R124): its four branches, and the quotient by a power of two that the formula branch
does not round. -/

namespace Sys2Proof.Machine

/-! ### Scaling by natural powers of two -/

theorem IsBinary64.mul_two_pow {x : ℚ} (hx : IsBinary64 x) (n : ℕ) : IsBinary64 (x * 2 ^ n) :=
  zpow_natCast (2 : ℚ) n ▸ hx.mul_zpow n

theorem IsBinary64.div_two_pow {x : ℚ} (hx : IsBinary64 x) (n : ℕ) : IsBinary64 (x / 2 ^ n) := by
  rw [div_eq_mul_inv, ← zpow_natCast, ← zpow_neg]
  exact hx.mul_zpow _

theorem rn64_mul_two_pow {q : ℚ} (hq : 0 < q) (n : ℕ) : rn64 (q * 2 ^ n) = rn64 q * 2 ^ n :=
  zpow_natCast (2 : ℚ) n ▸ rn64_mul_zpow hq n

/-! ### The branches -/

section
variable {m : ℕ}

theorem alphaQ_of_lt_32 (hm : m < 32) : alphaQ m = 673 / 1000 := if_pos hm

theorem alpha64_of_lt_32 (hm : m < 32) : alpha64 m = rn64 (673 / 1000) := if_pos hm

theorem alphaQ_of_lt_64 (hlo : 32 ≤ m) (hhi : m < 64) : alphaQ m = 697 / 1000 :=
  (if_neg hlo.not_gt).trans (if_pos hhi)

theorem alpha64_of_lt_64 (hlo : 32 ≤ m) (hhi : m < 64) : alpha64 m = rn64 (697 / 1000) :=
  (if_neg hlo.not_gt).trans (if_pos hhi)

theorem alphaQ_of_lt_128 (hlo : 64 ≤ m) (hhi : m < 128) : alphaQ m = 709 / 1000 := by
  rw [alphaQ, if_neg (by omega), if_neg hlo.not_gt, if_pos hhi]

theorem alpha64_of_lt_128 (hlo : 64 ≤ m) (hhi : m < 128) : alpha64 m = rn64 (709 / 1000) := by
  rw [alpha64, if_neg (by omega), if_neg hlo.not_gt, if_pos hhi]

theorem alphaQ_of_ge (hm : 128 ≤ m) : alphaQ m = (7213 / 10000) / (1 + (1079 / 1000) / m) := by
  rw [alphaQ, if_neg (by omega), if_neg (by omega), if_neg hm.not_gt]

theorem alpha64_of_ge (hm : 128 ≤ m) :
    alpha64 m = rn64 (rn64 (7213 / 10000) / rn64 (1 + rn64 (rn64 (1079 / 1000) / m))) := by
  rw [alpha64, if_neg (by omega), if_neg (by omega), if_neg hm.not_gt, alphaFormula64]

end

/-- R124: `c / m` is exact when `m` is a power of two. -/
theorem rn64_c_div_two_pow (p : ℕ) : rn64 (rn64 (1079 / 1000) / 2 ^ p) = rn64 (1079 / 1000) / 2 ^ p :=
  ((isBinary64_rn64 (by norm_num)).div_two_pow p).rn64_eq

/-- Settles O36: a lemma for each branch, the exact quotient, and the constants by evaluation. -/
theorem alphaBranchesAndTable : Obligations.AlphaBranchesAndTable :=
  ⟨fun _ hm => ⟨alphaQ_of_lt_32 hm, alpha64_of_lt_32 hm⟩,
    fun _ hlo hhi => ⟨alphaQ_of_lt_64 hlo hhi, alpha64_of_lt_64 hlo hhi⟩,
    fun _ hlo hhi => ⟨alphaQ_of_lt_128 hlo hhi, alpha64_of_lt_128 hlo hhi⟩,
    fun _ hm => ⟨alphaQ_of_ge hm, alpha64_of_ge hm⟩,
    fun p _ _ => rn64_c_div_two_pow p, by decide +kernel, by decide +kernel, by decide +kernel⟩

end Sys2Proof.Machine
end

section
/-! The command `EST` (`43_estimate.md` R120, R130, R136): its answers, on the rule's examples too. -/

namespace Sys2Proof.Machine

/-- R120: the estimate of the rule's example, one cell of 16 at 2. -/
theorem bits64_estimate_example : bits64 (Estimator.estimate ⟨4, [(10, 2)]⟩) = 0x4026985B96D8D1C6 := by decide +kernel

/-- Settles O31: the two cases of the configuration check, and the example by evaluation. -/
theorem estAnswersEstimate : Obligations.EstAnswersEstimate := by
  refine ⟨fun s hs => exec_unconfigured (fun _ => nofun) hs, fun s e hs => exec_est_configured hs, fun s hs => ?_,
    by decide +kernel, by decide +kernel, by decide +kernel, by decide +kernel⟩
  rw [exec_est_configured hs, bits64_estimate_example]
  rfl

/-- Settles O44: the rule's example, evaluated with either number of roundings. -/
theorem twoRoundingsAreObservable : Obligations.TwoRoundingsAreObservable :=
  ⟨bits64_estimate_example, by decide +kernel⟩

/-- Settles O39: `INIT` clears the cells, `EST` answers their estimate, and the thirteen values by evaluation. -/
theorem freshEstimateIsAlphaTimesCount : Obligations.FreshEstimateIsAlphaTimesCount := by
  refine ⟨fun v s hlo hhi => ?_, by decide +kernel⟩
  have hp := toNat_setWidth_precision hhi
  have hest := estimate_cleared (p := v.setWidth 5) (hp.symm ▸ hlo) (hp.symm ▸ hhi)
  rw [hp] at hest
  have hrun : execAll [.init v, .est] s =
      .next (((s.construct (v.setWidth 5)).respond .ok 0).respond .ok
        (bits64 (Estimator.estimate ⟨v.setWidth 5, RegFile.cleared⟩))) :=
    (execAll_cons (exec_init_inRange hlo hhi s) _).trans (execAll_cons (exec_est_configured rfl) [])
  refine ⟨_, hrun, ?_⟩
  rw [hest]
  simp

end Sys2Proof.Machine
end

section
/-! The estimate as a function of the exact sum (`43_estimate.md` R126, R127), which is all it takes from the cells of
an estimator that meets the invariant. -/

namespace Sys2Proof.Machine

/-- R127, for an exact sum `s`: the multiplication by `m^2` is not rounded (R126). -/
def estimateOfSum (p : ℕ) (s : ℚ) : ℚ := rn64 (alpha64 (Config.regCount p) * 2 ^ (2 * p) * rn64 (1 / s))

theorem alpha64_pos (m : ℕ) : 0 < alpha64 m := (zpow_pos two_pos _).trans_le (alpha64_bounds m).1

theorem rn64_alpha64_mul_two_pow (m n : ℕ) : rn64 (alpha64 m * 2 ^ n) = alpha64 m * 2 ^ n :=
  ((isBinary64_alpha64 m).mul_two_pow n).rn64_eq

theorem sum64_cells {e : Estimator} (he : e.Inv) : sum64 e.cells = sumExact e.cells :=
  sum64_eq_sumExact (fun _ hr => mem_cells_le_29 he hr) (length_cells_le he)

theorem sumExact_cells_pos {e : Estimator} (he : e.Inv) : 0 < sumExact e.cells :=
  (zpow_pos two_pos _).trans_le (zpow_le_sumExact_cells he)

theorem estimate_eq_ofSum {e : Estimator} (he : e.Inv) :
    e.estimate = estimateOfSum e.p.toNat (sumExact e.cells) := by
  rw [Estimator.estimate, estimate64, sum64_cells he, rn64_alpha64_mul_two_pow, estimateOfSum]

theorem estimateOfSum_arg_pos (p : ℕ) {s : ℚ} (hs : 0 < s) :
    0 < alpha64 (Config.regCount p) * 2 ^ (2 * p) * rn64 (1 / s) :=
  mul_pos (mul_pos (alpha64_pos _) (by positivity)) (rn64_pos (one_div_pos.mpr hs))

/-- R133: a smaller sum gives no smaller estimate, since every rounding is monotone. -/
theorem estimateOfSum_antitone (p : ℕ) {s s' : ℚ} (hs' : 0 < s') (hle : s' ≤ s) :
    estimateOfSum p s ≤ estimateOfSum p s' := by
  have hs : 0 < s := hs'.trans_le hle
  have hz : rn64 (1 / s) ≤ rn64 (1 / s') := rn64_mono (one_div_pos.mpr hs) (one_div_le_one_div_of_le hs' hle)
  refine rn64_mono (estimateOfSum_arg_pos p hs) (mul_le_mul_of_nonneg_left hz ?_)
  exact mul_nonneg (alpha64_pos _).le (by positivity)

/-- R130, R132: nothing is rounded when the sum is a power of two. -/
theorem estimateOfSum_zpow (p : ℕ) (k : ℤ) :
    estimateOfSum p ((2 : ℚ) ^ k) = alpha64 (Config.regCount p) * (2 : ℚ) ^ (2 * p - k) := by
  have hz : rn64 (1 / (2 : ℚ) ^ k) = (2 : ℚ) ^ (-k) := by rw [one_div, ← zpow_neg, rn64_zpow]
  have hexp : (2 : ℚ) ^ (2 * p) * (2 : ℚ) ^ (-k) = (2 : ℚ) ^ (2 * p - k : ℤ) := by
    rw [← zpow_natCast, ← zpow_add₀ two_ne_zero, ← sub_eq_add_neg, Nat.cast_mul, Nat.cast_ofNat]
  rw [estimateOfSum, hz, mul_assoc, hexp, ((isBinary64_alpha64 _).mul_zpow _).rn64_eq]

theorem sq_m (e : Estimator) : (e.m : ℚ) ^ 2 = 2 ^ (2 * e.p.toNat) := by
  rw [Estimator.m, Config.regCount, Nat.cast_pow, Nat.cast_ofNat, ← pow_mul, Nat.mul_comm]

/-- Settles O38: scaling by `2^(2p)` rounds nothing, and rounding commutes with it. -/
theorem productAssociationsAgree : Obligations.ProductAssociationsAgree := by
  intro e he
  have hs : 0 < 1 / sum64 e.cells := one_div_pos.mpr (sum64_cells he ▸ sumExact_cells_pos he)
  have hest : e.estimate = rn64 (alpha64 e.m * 2 ^ (2 * e.p.toNat) * rn64 (1 / sum64 e.cells)) := by
    rw [estimate_eq_ofSum he, sum64_cells he]
    rfl
  refine ⟨rn64_alpha64_mul_two_pow _ _, sq_m e, ?_, ?_⟩
  · rw [hest, mul_comm (2 ^ (2 * e.p.toNat)) (rn64 _), ((isBinary64_rn64 hs).mul_two_pow _).rn64_eq, mul_assoc,
      mul_comm (rn64 _)]
  · rw [hest, mul_right_comm, rn64_mul_two_pow (mul_pos (alpha64_pos _) (rn64_pos hs))]

/-- Settles O42: permuted cells have the same exact sum. -/
theorem estimateDependsOnMultiset : Obligations.EstimateDependsOnMultiset := by
  intro s s' e e' hs hs' he he' hp hperm
  have hest : e'.estimate = e.estimate := by
    rw [estimate_eq_ofSum he, estimate_eq_ofSum he', hp, sumExact_perm hperm]
  exact ⟨_, exec_est_configured hs, hest ▸ exec_est_configured hs'⟩

end Sys2Proof.Machine
end

section
/-! The range of the estimate (`43_estimate.md` R132): its bounds, and that every number on the way to it is a positive
normal number. -/

namespace Sys2Proof.Machine

/-! ### The bounds -/

/-- R132: the sum when every cell holds `33 - p`. -/
theorem sumExact_cells_of_full {e : Estimator} (he : e.Inv)
    (hfull : ∀ i, i < e.m → (RegFile.read e.regs i).toNat = 33 - e.p.toNat) :
    sumExact e.cells = (2 : ℚ) ^ (2 * (e.p.toNat : ℤ) - 33) := by
  have hterm : ∀ x ∈ e.cells.map cellTerm, x = (2 : ℚ) ^ (-((33 - e.p.toNat : ℕ) : ℤ)) := by
    intro x hx
    obtain ⟨r, hr, rfl⟩ := List.mem_map.mp hx
    obtain ⟨i, hi, rfl⟩ := List.mem_map.mp hr
    rw [cellTerm, hfull i (List.mem_range.mp hi)]
  obtain ⟨-, hhi, -, -⟩ := he
  simp only [Config.pMax] at hhi
  have hexp : (e.p.toNat : ℤ) + -((33 - e.p.toNat : ℕ) : ℤ) = 2 * (e.p.toNat : ℤ) - 33 := by omega
  rw [sumExact, List.sum_eq_card_nsmul _ _ hterm, List.length_map, length_cells, nsmul_eq_mul, Nat.cast_pow,
    Nat.cast_ofNat, ← zpow_natCast, ← zpow_add₀ two_ne_zero, hexp]

theorem estimateOfSum_least (p : ℕ) : estimateOfSum p (2 ^ p) = alpha64 (Config.regCount p) * 2 ^ p := by
  rw [← zpow_natCast, estimateOfSum_zpow, two_mul, add_sub_cancel_right]

theorem estimateOfSum_greatest (p : ℕ) :
    estimateOfSum p ((2 : ℚ) ^ (2 * (p : ℤ) - 33)) = alpha64 (Config.regCount p) * 2 ^ 33 := by
  rw [estimateOfSum_zpow, sub_sub_cancel]
  rfl

section
variable {e : Estimator} (he : e.Inv)
include he

theorem alpha64_mul_m_le_estimate : alpha64 e.m * e.m ≤ e.estimate := by
  have hm : (e.m : ℚ) = 2 ^ e.p.toNat := by rw [Estimator.m, Config.regCount, Nat.cast_pow, Nat.cast_ofNat]
  rw [estimate_eq_ofSum he, hm]
  exact (estimateOfSum_least _).ge.trans (estimateOfSum_antitone _ (sumExact_cells_pos he) (sumExact_cells_le e))

theorem estimate_le_alpha64_mul : e.estimate ≤ alpha64 e.m * 2 ^ 33 := by
  rw [estimate_eq_ofSum he]
  exact (estimateOfSum_antitone _ (zpow_pos two_pos _) (zpow_le_sumExact_cells he)).trans
    (estimateOfSum_greatest _).le

/-! ### The normal range -/

theorem m_bounds : 16 ≤ e.m ∧ e.m ≤ 2 ^ 16 := by
  obtain ⟨hlo, hhi, -, -⟩ := he
  exact ⟨Nat.pow_le_pow_right (n := 2) two_pos hlo, Nat.pow_le_pow_right two_pos hhi⟩

/-- R132: the estimate is a binary64 number between `1/4` and `2^33`. -/
theorem isPositiveNormal_estimate : IsPositiveNormal e.estimate := by
  obtain ⟨hm, -⟩ := m_bounds he
  obtain ⟨halpha, halpha'⟩ := alpha64_bounds e.m
  have hm' : (1 : ℚ) ≤ e.m := mod_cast (by decide : 1 ≤ 16).trans hm
  have hbinary : IsBinary64 e.estimate := by
    rw [estimate_eq_ofSum he]
    exact isBinary64_rn64 (estimateOfSum_arg_pos _ (sumExact_cells_pos he))
  refine hbinary.isPositiveNormal (j := -2) (k := 33) (by decide) (by decide) ?_ ?_
  · calc (2 : ℚ) ^ (-2 : ℤ) ≤ alpha64 e.m := halpha
      _ ≤ alpha64 e.m * e.m := le_mul_of_one_le_right (alpha64_pos _).le hm'
      _ ≤ e.estimate := alpha64_mul_m_le_estimate he
  · calc e.estimate ≤ alpha64 e.m * 2 ^ 33 := estimate_le_alpha64_mul he
      _ ≤ (2 : ℚ) ^ (33 : ℤ) := mul_le_of_le_one_left (by positivity) halpha'

end

theorem isPositiveNormal_alpha64 (m : ℕ) : IsPositiveNormal (alpha64 m) :=
  (isBinary64_alpha64 m).isPositiveNormal (k := 0) (by decide) (by decide) (alpha64_bounds m).1 (alpha64_bounds m).2

theorem isPositiveNormal_c : IsPositiveNormal (rn64 (1079 / 1000)) :=
  isPositiveNormal_rn64 (j := 0) (k := 1) (by decide) (by decide) (by norm_num) (by norm_num)

theorem isPositiveNormal_k : IsPositiveNormal (rn64 (7213 / 10000)) :=
  isPositiveNormal_rn64 (j := -1) (k := 0) (by decide) (by decide) (by norm_num) (by norm_num)

/-- R124: the bounds of `c / m` on the legal counts. -/
theorem c_div_bounds {m : ℕ} (hlo : 16 ≤ m) (hhi : m ≤ 2 ^ 16) :
    (2 : ℚ) ^ (-16 : ℤ) ≤ rn64 (1079 / 1000) / m ∧ rn64 (1079 / 1000) / m ≤ (2 : ℚ) ^ (0 : ℤ) := by
  have hm : (2 : ℚ) ≤ m := mod_cast (by decide : 2 ≤ 16).trans hlo
  have hm' : (m : ℚ) ≤ 2 ^ 16 := mod_cast hhi
  have hc : 1 ≤ rn64 (1079 / 1000) := zpow_le_rn64 (k := 0) (by norm_num)
  have hc' : rn64 (1079 / 1000) ≤ 2 := rn64_le_zpow (k := 1) (by norm_num) (by norm_num)
  have hpos : (0 : ℚ) < m := two_pos.trans_le hm
  rw [le_div_iff₀ hpos, div_le_iff₀ hpos]
  constructor
  · calc (2 : ℚ) ^ (-16 : ℤ) * m ≤ (2 : ℚ) ^ (-16 : ℤ) * 2 ^ 16 := mul_le_mul_of_nonneg_left hm' (by positivity)
      _ = 1 := by norm_num
      _ ≤ rn64 (1079 / 1000) := hc
  · calc rn64 (1079 / 1000) ≤ 2 := hc'
      _ ≤ m := hm
      _ = (2 : ℚ) ^ (0 : ℤ) * m := by rw [zpow_zero, one_mul]

theorem isPositiveNormal_t {m : ℕ} (hlo : 16 ≤ m) (hhi : m ≤ 2 ^ 16) :
    IsPositiveNormal (rn64 (rn64 (1079 / 1000) / m)) :=
  isPositiveNormal_rn64 (by decide) (by decide) (c_div_bounds hlo hhi).1 (c_div_bounds hlo hhi).2

theorem isPositiveNormal_u {m : ℕ} (hlo : 16 ≤ m) (hhi : m ≤ 2 ^ 16) :
    IsPositiveNormal (rn64 (1 + rn64 (rn64 (1079 / 1000) / m))) := by
  obtain ⟨hquot, hquot'⟩ := c_div_bounds hlo hhi
  have hpos : 0 < rn64 (1079 / 1000) / m := (zpow_pos two_pos _).trans_le hquot
  have ht : 0 < rn64 (rn64 (1079 / 1000) / m) := rn64_pos hpos
  have ht' : rn64 (rn64 (1079 / 1000) / m) ≤ 1 := rn64_le_zpow (k := 0) hpos hquot'
  exact isPositiveNormal_rn64 (j := 0) (k := 1) (by decide) (by decide) (by norm_num [ht.le]) (by norm_num; linarith)

/-- R126: alpha scaled by `m^2` on the legal precisions. -/
theorem isPositiveNormal_scaled_alpha64 (m : ℕ) {n : ℕ} (hn : n ≤ 32) :
    IsPositiveNormal (rn64 (alpha64 m * 2 ^ n)) := by
  obtain ⟨halpha, halpha'⟩ := alpha64_bounds m
  have hpow : (2 : ℚ) ^ n ≤ 2 ^ 32 := pow_le_pow_right₀ one_le_two hn
  refine isPositiveNormal_rn64 (j := -2) (k := 32) (by decide) (by decide) ?_ ?_
  · exact halpha.trans (le_mul_of_one_le_right (alpha64_pos m).le (one_le_pow₀ one_le_two))
  · exact (mul_le_of_le_one_left (by positivity) halpha').trans hpow

/-- R125: a term is a power of two of the normal range. -/
theorem isPositiveNormal_cellTerm {r : Byte} (hr : r.toNat ≤ 29) : IsPositiveNormal (cellTerm r) :=
  (isBinary64_zpow _).isPositiveNormal (by omega) (by omega) le_rfl le_rfl

/-- R125: the sum of at least one and at most `2^16` terms is a count of `2^-29` that needs no more than 46 bits. -/
theorem isPositiveNormal_sum64 {cells : List Byte} (hne : cells ≠ []) (h : ∀ r ∈ cells, r.toNat ≤ 29)
    (hlen : cells.length ≤ 2 ^ 16) : IsPositiveNormal (sum64 cells) := by
  have hunits := sumUnits_le_of_length hlen
  have hpos : 0 < sumUnits cells := by
    obtain ⟨r, rest, rfl⟩ := List.exists_cons_of_ne_nil hne
    rw [sumUnits_cons]
    positivity
  have hunits' : (sumUnits cells : ℚ) ≤ 2 ^ 45 := mod_cast hunits
  have hpos' : (1 : ℚ) ≤ sumUnits cells := mod_cast hpos
  have hbinary : IsBinary64 (sumUnits cells * (2 : ℚ) ^ (-29 : ℤ)) := ⟨_, _, hpos, by omega, rfl⟩
  rw [sum64_eq_sumExact h hlen, sumExact_eq_units h]
  refine hbinary.isPositiveNormal (j := -29) (k := 16) (by decide) (by decide) ?_ ?_
  · exact le_mul_of_one_le_left (by positivity) hpos'
  · calc sumUnits cells * (2 : ℚ) ^ (-29 : ℤ) ≤ 2 ^ 45 * (2 : ℚ) ^ (-29 : ℤ) :=
        mul_le_mul_of_nonneg_right hunits' (by positivity)
      _ = (2 : ℚ) ^ (16 : ℤ) := by norm_num

theorem isPositiveNormal_indicator {e : Estimator} (he : e.Inv) : IsPositiveNormal (rn64 (1 / sum64 e.cells)) := by
  obtain ⟨hlo, hhi⟩ := one_div_sumExact_bounds he
  rw [sum64_cells he]
  exact isPositiveNormal_rn64 (by decide) (by decide) hlo hhi

theorem isPositiveNormal_partialSum {e : Estimator} (he : e.Inv) {k : ℕ} (hk : 1 ≤ k) :
    IsPositiveNormal (sum64 (e.cells.take k)) := by
  have hlen : 0 < (e.cells.take k).length := by
    rw [List.length_take, length_cells]
    exact lt_min hk (by positivity)
  exact isPositiveNormal_sum64 (List.ne_nil_of_length_pos hlen)
    (fun r hr => mem_cells_le_29 he (List.mem_of_mem_take hr))
    ((List.length_take_le' k e.cells).trans (length_cells_le he))

/-- Settles O40: the bounds are the estimates of the least and the greatest sum, where nothing is rounded; each number
on the way is rounded, or needs no rounding, between powers of two of the normal range. -/
theorem estimateRange : Obligations.EstimateRange := by
  intro e he
  obtain ⟨hm, hm'⟩ := m_bounds he
  have hp : 2 * e.p.toNat ≤ 32 := Nat.mul_le_mul_left 2 he.2.1
  have hsum : IsPositiveNormal (sum64 e.cells) := by
    have hall := isPositiveNormal_partialSum he (Nat.one_le_two_pow (n := e.p.toNat))
    rwa [← length_cells, List.take_length] at hall
  refine ⟨alpha64_mul_m_le_estimate he, estimate_le_alpha64_mul he, fun hfull => ?_, ?_,
    fun r hr => isPositiveNormal_cellTerm (mem_cells_le_29 he hr), fun k hk _ => isPositiveNormal_partialSum he hk⟩
  · rw [estimate_eq_ofSum he, sumExact_cells_of_full he hfull]
    exact estimateOfSum_greatest _
  · simp only [List.forall_mem_cons, List.not_mem_nil, false_imp_iff, implies_true, and_true]
    exact ⟨isPositiveNormal_c, isPositiveNormal_k, isPositiveNormal_t hm hm', isPositiveNormal_u hm hm',
      isPositiveNormal_alpha64 _, hsum, isPositiveNormal_indicator he, isPositiveNormal_scaled_alpha64 _ hp,
      isPositiveNormal_estimate he⟩

end Sys2Proof.Machine
end

section
/-! Monotonicity along commands (`43_estimate.md` R133): cells only rise, so the exact sum only falls. -/

namespace Sys2Proof.Machine

/-- `e'` is a later state of the estimator `e`: the same precision, and no cell lower. -/
structure Estimator.RaisedFrom (e e' : Estimator) : Prop where
  inv : e'.Inv
  p_eq : e'.p = e.p
  read_le : ∀ i, RegFile.read e.regs i ≤ RegFile.read e'.regs i

theorem raisedFrom_refl {e : Estimator} (he : e.Inv) : e.RaisedFrom e := ⟨he, rfl, fun _ => BitVec.le_refl _⟩

theorem regs_wf {e : Estimator} (he : e.Inv) : RegFile.wf e.regs := he.2.2.1

theorem raisedFrom_addHash {e e' : Estimator} (h : e.RaisedFrom e') (hash : Hash) : e.RaisedFrom (e'.addHash hash) :=
  ⟨addHash_inv h.inv hash, h.p_eq,
    fun i => BitVec.le_trans (h.read_le i) (read_le_read_addHash (regs_wf h.inv) hash i)⟩

theorem cellTerm_antitone {a b : Byte} (h : a ≤ b) : cellTerm b ≤ cellTerm a := by
  have hnat : a.toNat ≤ b.toNat := BitVec.le_def.mp h
  exact zpow_le_zpow_right₀ one_le_two (by omega)

theorem sumExact_cells_antitone {e e' : Estimator} (h : e.RaisedFrom e') : sumExact e'.cells ≤ sumExact e.cells := by
  have hm : e'.m = e.m := by rw [Estimator.m, Estimator.m, h.p_eq]
  rw [sumExact, sumExact, Estimator.cells, Estimator.cells, hm, List.map_map, List.map_map]
  exact List.sum_le_sum fun i _ => cellTerm_antitone (h.read_le i)

theorem alphaQ_pos (m : ℕ) : 0 < alphaQ m := by
  unfold alphaQ
  split_ifs <;> positivity

/-- R129: the exact estimate falls with the sum. -/
theorem estimateExact_antitone (p : ℕ) {cells cells' : List Byte} (hpos : 0 < sumExact cells')
    (hle : sumExact cells' ≤ sumExact cells) : estimateExact p cells ≤ estimateExact p cells' :=
  div_le_div_of_nonneg_left (mul_nonneg (alphaQ_pos _).le (by positivity)) hpos hle

/-- Settles O41: every command between two successful `INIT`s raises the estimator's cells, if it changes them; then
the sum falls, and everything computed from it rises. -/
theorem estimateNeverDecreases : Obligations.EstimateNeverDecreases := by
  intro is s t e hs he his ht
  obtain ⟨e', ht', hraised⟩ :=
    execAll_keeps (P := e.RaisedFrom) (fun _ hash h => raisedFrom_addHash h hash) hs (raisedFrom_refl he) his ht
  have he' := hraised.inv
  have hp := hraised.p_eq
  have hsum := sumExact_cells_antitone hraised
  have hest : e.estimate ≤ e'.estimate := by
    rw [estimate_eq_ofSum he, estimate_eq_ofSum he', hp]
    exact estimateOfSum_antitone _ (sumExact_cells_pos he') hsum
  exact ⟨e', ht', hsum, hp ▸ estimateExact_antitone _ (sumExact_cells_pos he') hsum, hest,
    toNat_bits64_mono (isPositiveNormal_estimate he) (isPositiveNormal_estimate he') hest⟩

end Sys2Proof.Machine
end

section
/-! The error of the estimate (`43_estimate.md` R135), by counting roundings: each one moves a number by a factor no
further from 1 than `1 - 2^-53` and its reciprocal, and such factors multiply. -/

namespace Sys2Proof.Machine

/-- `1 - 2^-53`: one rounding takes a number to no less than this part of it. -/
def roundingFactor : ℚ := 1 - (2 : ℚ) ^ (-53 : ℤ)

theorem roundingFactor_pos : 0 < roundingFactor := by norm_num [roundingFactor]

theorem roundingFactor_le_one : roundingFactor ≤ 1 := by norm_num [roundingFactor]

/-- The positive `x` is off the positive `y` by no more than `k` roundings, up or down. -/
def WithinRoundings (k : ℕ) (x y : ℚ) : Prop :=
  0 < x ∧ 0 < y ∧ y * roundingFactor ^ k ≤ x ∧ x * roundingFactor ^ k ≤ y

namespace WithinRoundings

variable {j k : ℕ} {a b x y : ℚ}

theorem refl (hx : 0 < x) : WithinRoundings 0 x x := ⟨hx, hx, by simp, by simp⟩

theorem mono (h : WithinRoundings j x y) (hjk : j ≤ k) : WithinRoundings k x y := by
  obtain ⟨hx, hy, hle, hle'⟩ := h
  have hpow : roundingFactor ^ k ≤ roundingFactor ^ j :=
    pow_le_pow_of_le_one roundingFactor_pos.le roundingFactor_le_one hjk
  exact ⟨hx, hy, (mul_le_mul_of_nonneg_left hpow hy.le).trans hle,
    (mul_le_mul_of_nonneg_left hpow hx.le).trans hle'⟩

theorem trans (h : WithinRoundings j a x) (h' : WithinRoundings k x y) : WithinRoundings (j + k) a y := by
  obtain ⟨ha, -, hle, hle'⟩ := h
  obtain ⟨-, hy, hle₁, hle₁'⟩ := h'
  have hj : 0 ≤ roundingFactor ^ j := pow_nonneg roundingFactor_pos.le j
  have hk : 0 ≤ roundingFactor ^ k := pow_nonneg roundingFactor_pos.le k
  refine ⟨ha, hy, ?_, ?_⟩
  · calc y * roundingFactor ^ (j + k) = y * roundingFactor ^ k * roundingFactor ^ j := by ring
      _ ≤ x * roundingFactor ^ j := mul_le_mul_of_nonneg_right hle₁ hj
      _ ≤ a := hle
  · calc a * roundingFactor ^ (j + k) = a * roundingFactor ^ j * roundingFactor ^ k := by ring
      _ ≤ x * roundingFactor ^ k := mul_le_mul_of_nonneg_right hle' hk
      _ ≤ y := hle₁'

theorem mul (h : WithinRoundings j a b) (h' : WithinRoundings k x y) :
    WithinRoundings (j + k) (a * x) (b * y) := by
  obtain ⟨ha, hb, hle, hle'⟩ := h
  obtain ⟨hx, hy, hle₁, hle₁'⟩ := h'
  have hr := roundingFactor_pos
  refine ⟨mul_pos ha hx, mul_pos hb hy, ?_, ?_⟩
  · calc b * y * roundingFactor ^ (j + k) = b * roundingFactor ^ j * (y * roundingFactor ^ k) := by ring
      _ ≤ a * x := mul_le_mul hle hle₁ (by positivity) ha.le
  · calc a * x * roundingFactor ^ (j + k) = a * roundingFactor ^ j * (x * roundingFactor ^ k) := by ring
      _ ≤ b * y := mul_le_mul hle' hle₁' (by positivity) hb.le

theorem inv (h : WithinRoundings k x y) : WithinRoundings k x⁻¹ y⁻¹ := by
  obtain ⟨hx, hy, hle, hle'⟩ := h
  refine ⟨inv_pos.mpr hx, inv_pos.mpr hy, ?_, ?_⟩
  · rwa [inv_mul_le_iff₀ hy, ← div_eq_mul_inv, le_div_iff₀ hx, mul_comm]
  · rwa [inv_mul_le_iff₀ hx, ← div_eq_mul_inv, le_div_iff₀ hy, mul_comm]

theorem div (h : WithinRoundings j a b) (h' : WithinRoundings k x y) : WithinRoundings (j + k) (a / x) (b / y) := by
  rw [div_eq_mul_inv, div_eq_mul_inv]
  exact h.mul h'.inv

theorem one_add (h : WithinRoundings k x y) : WithinRoundings k (1 + x) (1 + y) := by
  obtain ⟨hx, hy, hle, hle'⟩ := h
  have hpow : roundingFactor ^ k ≤ 1 := pow_le_one₀ roundingFactor_pos.le roundingFactor_le_one
  exact ⟨by positivity, by positivity, by linarith, by linarith⟩

theorem round_self (hx : 0 < x) : WithinRoundings 1 (rn64 x) x := by
  obtain ⟨hlo, hhi⟩ := abs_le.mp (abs_rn64_sub_le hx)
  refine ⟨rn64_pos hx, hx, ?_, ?_⟩
  · rw [pow_one, roundingFactor]
    linarith
  · calc rn64 x * roundingFactor ^ 1 ≤ (x + (2 : ℚ) ^ (-53 : ℤ) * x) * roundingFactor ^ 1 :=
        mul_le_mul_of_nonneg_right (by linarith) (by simpa using roundingFactor_pos.le)
      _ = x * (1 - ((2 : ℚ) ^ (-53 : ℤ)) ^ 2) := by rw [pow_one, roundingFactor]; ring
      _ ≤ x := mul_le_of_le_one_right hx.le (by norm_num)

/-- One more rounding. -/
theorem round (h : WithinRoundings k x y) : WithinRoundings (1 + k) (rn64 x) y := (round_self h.1).trans h

/-- R135: six roundings are an error of at most `7 * 2^-53`. -/
theorem abs_div_sub_one_le (h : WithinRoundings 6 x y) : |x / y - 1| ≤ 7 * (2 : ℚ) ^ (-53 : ℤ) := by
  obtain ⟨hx, hy, hle, hle'⟩ := h
  have hlower : 1 - 7 * (2 : ℚ) ^ (-53 : ℤ) ≤ roundingFactor ^ 6 := by norm_num [roundingFactor]
  have hupper : 1 ≤ (1 + 7 * (2 : ℚ) ^ (-53 : ℤ)) * roundingFactor ^ 6 := by norm_num [roundingFactor]
  have hquot : roundingFactor ^ 6 ≤ x / y := (le_div_iff₀' hy).mpr hle
  have hquot' : x / y * roundingFactor ^ 6 ≤ 1 := by
    rwa [div_mul_eq_mul_div, div_le_one hy]
  have hquot'' : x / y ≤ 1 + 7 * (2 : ℚ) ^ (-53 : ℤ) :=
    le_of_mul_le_mul_right (hquot'.trans hupper) (pow_pos roundingFactor_pos 6)
  exact abs_sub_le_iff.mpr ⟨sub_le_iff_le_add'.mpr hquot'', sub_le_comm.mp (hlower.trans hquot)⟩

end WithinRoundings

/-- R124: the formula branch takes four roundings, of `k`, of `c` with the sum, and of the quotient; the division by `m`
is exact. -/
theorem withinRoundings_alpha64_of_ge {p : ℕ} (hm : 128 ≤ 2 ^ p) :
    WithinRoundings 4 (alpha64 (2 ^ p)) (alphaQ (2 ^ p)) := by
  have hc : WithinRoundings 1 (rn64 (1079 / 1000) / 2 ^ p) (1079 / 1000 / 2 ^ p) :=
    (WithinRoundings.round_self (by norm_num)).div (.refl (by positivity))
  have hk : WithinRoundings 1 (rn64 (7213 / 10000)) (7213 / 10000) := .round_self (by norm_num)
  rw [alpha64_of_ge hm, alphaQ_of_ge hm, Nat.cast_pow, Nat.cast_ofNat, rn64_c_div_two_pow]
  exact (hk.div hc.one_add.round).round

/-- R123, R124: a literal is rounded once. -/
theorem withinRoundings_alpha64 (p : ℕ) : WithinRoundings 4 (alpha64 (2 ^ p)) (alphaQ (2 ^ p)) := by
  rcases lt_or_ge (2 ^ p) 128 with hlt | hge
  · refine WithinRoundings.mono (j := 1) ?_ (by decide)
    rcases lt_or_ge (2 ^ p) 32 with h32 | h32
    · rw [alpha64_of_lt_32 h32, alphaQ_of_lt_32 h32]
      exact .round_self (by norm_num)
    · rcases lt_or_ge (2 ^ p) 64 with h64 | h64
      · rw [alpha64_of_lt_64 h32 h64, alphaQ_of_lt_64 h32 h64]
        exact .round_self (by norm_num)
      · rw [alpha64_of_lt_128 h64 hlt, alphaQ_of_lt_128 h64 hlt]
        exact .round_self (by norm_num)
  · exact withinRoundings_alpha64_of_ge hge

/-- Settles O43: alpha takes at most four roundings, the reciprocal one and the product one; the sum and the scaling by
`m^2` are exact. -/
theorem estimateErrorBound : Obligations.EstimateErrorBound := by
  intro e he
  have hz : WithinRoundings 1 (rn64 (1 / sumExact e.cells)) (1 / sumExact e.cells) :=
    .round_self (one_div_pos.mpr (sumExact_cells_pos he))
  have hscaled : WithinRoundings 4 (alpha64 e.m * 2 ^ (2 * e.p.toNat)) (alphaQ e.m * 2 ^ (2 * e.p.toNat)) :=
    (withinRoundings_alpha64 e.p.toNat).mul (.refl (by positivity))
  have hexact : estimateExact e.p.toNat e.cells = alphaQ e.m * 2 ^ (2 * e.p.toNat) * (1 / sumExact e.cells) := by
    rw [← sq_m]
    exact div_eq_mul_one_div _ _
  rw [estimate_eq_ofSum he, hexact]
  exact (hscaled.mul hz).round.abs_div_sub_one_le

end Sys2Proof.Machine
end

section
/-! The read-back commands `CNT` and `RDREG` (`44_readback.md` R140 to R142): what they answer, and which commands leave
the answer as it was. -/

namespace Sys2Proof.Machine

/-! ### The register count -/

/-- R140: the register count fits in the answer. -/
theorem toNat_ofNat_m (e : Estimator) : (BitVec.ofNat 64 e.m).toNat = 2 ^ e.p.toNat := by
  have hp : e.p.toNat < 64 := by omega
  exact Nat.mod_eq_of_lt (Nat.pow_lt_pow_right one_lt_two hp)

/-- R140: the register counts that `INIT` can give. -/
theorem two_pow_mem_registerCounts : ∀ n ≤ Config.pMax, Config.pMin ≤ n →
    2 ^ n ∈ [16, 32, 64, 128, 256, 512, 1024, 2048, 4096, 8192, 16384, 32768, 65536] := by decide

/-- Settles O45: the answer is a function of the precision, which only a successful `INIT` writes. -/
theorem cntAnswersRegisterCount : Obligations.CntAnswersRegisterCount := by
  refine ⟨fun s hs => exec_unconfigured (fun _ => nofun) hs, fun s e hs => ?_, fun is s t e hs his ht => ?_⟩
  · have hd := toNat_ofNat_m e
    refine ⟨_, exec_cnt_configured hs, hd, hd.trans (length_cells e).symm, fun he => ?_⟩
    obtain ⟨hlo, hhi, -, -⟩ := he
    exact hd ▸ two_pow_mem_registerCounts _ hhi hlo
  · obtain ⟨e', hte', hm⟩ := execAll_keeps (P := fun e' => e'.m = e.m) (fun _ _ hm => hm) hs rfl his ht
    exact ⟨_, exec_cnt_configured hs, hm ▸ exec_cnt_configured hte'⟩

/-! ### One cell -/

/-- R32: no cell is above 29, the bound at the least precision. -/
theorem read_le_29 {e : Estimator} (he : e.Inv) (i : Nat) : (RegFile.read e.regs i).toNat ≤ 29 := by
  have hle := read_le_rankMax he i
  obtain ⟨hlo, -, -, -⟩ := he
  simp only [Config.rankMax, Config.pMin] at hle hlo
  omega

/-- R48, R110: a command that is neither `INIT` nor an `ADD` to cell `j` leaves the precision and cell `j` as
they were. -/
theorem exec_keeps_cell {i : Instr} {s t : State} {e : Estimator} {j : Nat} (hs : s.block = .configured e)
    (hinit : ∀ v, i ≠ .init v) (hadd : ∀ h, i = .add h → index h e.p ≠ j) (ht : exec i s = .next t) :
    ∃ e', t.block = .configured e' ∧ e'.m = e.m ∧ RegFile.read e'.regs j = RegFile.read e.regs j := by
  rcases exec_block_cases ht with hb | ⟨v, rfl, -⟩ | ⟨h, e₀, rfl, he₀, hb⟩
  · exact ⟨e, hb.trans hs, rfl, rfl⟩
  · exact absurd rfl (hinit v)
  · obtain rfl : e₀ = e := Block.configured.inj (he₀.symm.trans hs)
    exact ⟨_, hb, addHash_m e₀ h, read_addHash_other e₀ h (hadd h rfl).symm⟩

/-- R141: the estimator of the rule's example, in which one hash has raised cell 10 to 2. -/
theorem addHash_rdregExample :
    Estimator.addHash 2766284370 ⟨(4 : BitVec 32).setWidth 5, RegFile.cleared⟩ = ⟨4, [(10, 2)]⟩ := by decide

/-- R141: the rule's example on every state, command by command. -/
theorem execAll_rdregExample (s : State) :
    ∃ t, execAll [.init 4, .add 2766284370, .rdreg 10, .rdreg 9, .rdreg 16] s = .next t ∧
      t.responses = s.responses ++ [⟨.ok, 0⟩, ⟨.ok, 0⟩, ⟨.ok, 2⟩, ⟨.ok, 0⟩, ⟨.badIndex, 0⟩] := by
  rw [execAll_cons (exec_init_inRange (by decide) (by decide) s), execAll_cons (exec_add_configured rfl _),
    addHash_rdregExample, execAll_cons (exec_rdreg_inRange (e := ⟨4, [(10, 2)]⟩) rfl (by decide)),
    execAll_cons (exec_rdreg_inRange (e := ⟨4, [(10, 2)]⟩) rfl (by decide)),
    execAll_cons (exec_rdreg_outOfRange (e := ⟨4, [(10, 2)]⟩) rfl (by decide))]
  refine ⟨_, rfl, ?_⟩
  simp only [raise_responses, respond_responses, setEstimator_responses, construct_responses, List.append_assoc]
  rfl

/-- Settles O46: the configuration check, the index check and the read, in that order; the answer is a function of the
precision and the cell. -/
theorem rdregAnswersCell : Obligations.RdregAnswersCell := by
  refine ⟨fun idx s hs => exec_unconfigured (fun _ => nofun) hs, fun idx s e hs hidx => exec_rdreg_outOfRange hs hidx,
    fun idx s e hs hidx => exec_rdreg_inRange hs hidx, ?_, fun idx e he => read_le_29 he _, ?_, execAll_rdregExample⟩
  · rintro idx p rfl
    exact idx.isLt
  · intro idx i s t e hs hidx hinit hadd ht
    obtain ⟨e', hte', hm, hread⟩ := exec_keeps_cell hs hinit hadd ht
    exact ⟨_, exec_rdreg_inRange hs hidx, hread ▸ exec_rdreg_inRange hte' (hm.symm ▸ hidx)⟩

/-! ### The whole vector -/

/-- Settles O47, by induction on the indexes: each read leaves the block, so the next one reads the same vector. -/
theorem readingTheWholeVector : Obligations.ReadingTheWholeVector := by
  intro order s e hs hidx
  induction order generalizing s with
  | nil =>
    rw [List.map_nil, List.map_nil, List.append_nil]
    rfl
  | cons i order ih =>
    obtain ⟨hi, hrest⟩ := List.forall_mem_cons.mp hidx
    rw [List.map_cons, execAll_cons (exec_rdreg_inRange hs hi), ih (s.respond _ _) hs hrest, respond_responses,
      List.append_assoc]
    rfl

end Sys2Proof.Machine
end

section
/-! The errors (`60_exceptions.md` R150, R153, R155, R159): the checks of a command and their order, and what a refused
command leaves. -/

namespace Sys2Proof.Machine

/-! ### The answer of a command -/

/-- R62: the one response that a command or a word appends is fixed by its outcome. -/
theorem response_unique {o : Host.Outcome State Fault Refusal} {s t u : State} {r r' : Response}
    (ht : o = .next t) (hr : t.responses = s.responses ++ [r])
    (hu : o = .next u) (hr' : u.responses = s.responses ++ [r']) : r = r' := by
  obtain rfl : t = u := Host.Outcome.next.inj (ht.symm.trans hu)
  exact List.singleton_inj.mp (List.append_cancel_left (hr.symm.trans hr'))

/-- `t` is what one command leaves of `s`: it was answered `OK`, or it raised an error (R150). -/
def State.CompletedOrRaised (s t : State) : Prop :=
  (∃ d, t.responses = s.responses ++ [⟨.ok, d⟩]) ∨ ∃ c, t = s.raise c

/-- R159: on a configured block no check is left for `ADD`, `EST` and `CNT`. -/
theorem exec_configured_ok {i : Instr} {s : State} {e : Estimator} (hs : s.block = .configured e)
    (hi : (∃ h, i = .add h) ∨ i = .est ∨ i = .cnt) :
    ∃ t d, exec i s = .next t ∧ t.responses = s.responses ++ [⟨.ok, d⟩] := by
  obtain ⟨h, rfl⟩ | rfl | rfl := hi
  · exact ⟨_, _, exec_add_configured hs h, rfl⟩
  · exact ⟨_, _, exec_est_configured hs, rfl⟩
  · exact ⟨_, _, exec_cnt_configured hs, rfl⟩

/-- R153: the range check of its operand is the one check of `INIT` that can fail. -/
theorem exec_init_ok_or_raises (v : BitVec 32) (s : State) :
    ∃ t, exec (.init v) s = .next t ∧
      (t.responses = s.responses ++ [⟨.ok, 0⟩] ∨ t = s.raise (.invalidPrecision v)) := by
  by_cases hv : v.toNat < Config.pMin ∨ Config.pMax < v.toNat
  · exact ⟨_, exec_init_outOfRange hv s, .inr rfl⟩
  · obtain ⟨hlo, hhi⟩ : Config.pMin ≤ v.toNat ∧ v.toNat ≤ Config.pMax := by omega
    exact ⟨_, exec_init_inRange hlo hhi s, .inl rfl⟩

/-- A command other than `INIT` on a configured block: the index check of `RDREG` is the one check left. -/
theorem exec_configured_completes_or_raises {i : Instr} {s : State} {e : Estimator} (hi : ∀ v, i ≠ .init v)
    (hs : s.block = .configured e) : ∃ t, exec i s = .next t ∧ s.CompletedOrRaised t := by
  cases i with
  | init v => exact absurd rfl (hi v)
  | add h => exact ⟨_, exec_add_configured hs h, .inl ⟨_, rfl⟩⟩
  | est => exact ⟨_, exec_est_configured hs, .inl ⟨_, rfl⟩⟩
  | cnt => exact ⟨_, exec_cnt_configured hs, .inl ⟨_, rfl⟩⟩
  | rdreg idx =>
    rcases Nat.lt_or_ge idx.toNat e.m with hidx | hidx
    · exact ⟨_, exec_rdreg_inRange hs hidx, .inl ⟨_, rfl⟩⟩
    · exact ⟨_, exec_rdreg_outOfRange hs hidx, .inr ⟨_, rfl⟩⟩

/-- R150: every command, in every state, completes or raises an error. -/
theorem exec_completes_or_raises (i : Instr) (s : State) : ∃ t, exec i s = .next t ∧ s.CompletedOrRaised t := by
  by_cases hi : ∃ v, i = .init v
  · obtain ⟨v, rfl⟩ := hi
    obtain ⟨t, ht, hcases⟩ := exec_init_ok_or_raises v s
    exact ⟨t, ht, hcases.imp (⟨_, ·⟩) (⟨_, ·⟩)⟩
  · have hne : ∀ v, i ≠ .init v := not_exists.mp hi
    cases hs : s.block with
    | unconfigured => exact ⟨_, exec_unconfigured hne hs, .inr ⟨_, rfl⟩⟩
    | configured e => exact exec_configured_completes_or_raises hne hs

/-- R66, R150: and so does every command word, legal or not. -/
theorem performWord_completes_or_raises (w : CmdWord) (s : State) :
    ∃ t, performWord w s = .next t ∧ s.CompletedOrRaised t := by
  cases hdec : decode w with
  | error err => exact ⟨_, performWord_of_decode_error hdec s, .inr ⟨_, rfl⟩⟩
  | ok i => exact performWord_of_decode_ok hdec s ▸ exec_completes_or_raises i s

/-! ### The statements -/

/-- Settles O49: the configuration check refuses every command but `INIT`, which has only the operand check. -/
theorem unconfiguredCommandsRefused : Obligations.UnconfiguredCommandsRefused := by
  refine ⟨fun i s hs hi => exec_unconfigured hi hs, fun v s t r ht hr => ?_⟩
  obtain ⟨u, hu, hok | rfl⟩ := exec_init_ok_or_raises v s
  · obtain rfl := response_unique ht hr hu hok
    exact nofun
  · obtain rfl := response_unique ht hr hu (raise_responses _ s)
    exact nofun

/-- Settles O50: an answer that is not `OK` is the answer of a raised error, which only appends its response. -/
theorem errorsArePrecise : Obligations.ErrorsArePrecise := by
  intro s t w rest r hin hstep hr hcode
  obtain ⟨u, hu, hcases⟩ := performWord_completes_or_raises w { s with inputs := rest }
  obtain rfl : t = u := Host.Outcome.next.inj (hstep.symm.trans ((step_of_command hin).trans hu))
  rcases hcases with ⟨d, hok⟩ | ⟨c, rfl⟩
  · obtain rfl := response_unique hstep hr hstep hok
    exact absurd rfl hcode
  · obtain rfl : r = c.response := response_unique hstep hr hstep rfl
    rfl

/-- Settles O51: the word is answered once, so each check that decides its outcome decides that response. -/
theorem checkOrder : Obligations.CheckOrder := by
  intro s w rest hin
  obtain ⟨t, ht, -, r, hr⟩ := performWord_answers w { s with inputs := rest }
  have hdecided : ∀ {i u r'}, decode w = .ok i → exec i { s with inputs := rest } = .next u →
      u.responses = s.responses ++ [r'] → r = r' := fun hdec hu hr' =>
    response_unique ht hr ((performWord_of_decode_ok hdec _).trans hu) hr'
  refine ⟨t, r, (step_of_command hin).trans ht, hr, fun err hdec => ?illegal,
    fun v hdec => ⟨fun hv => ?precision, fun hlo hhi => ?init⟩, fun i hdec hi hs => ?unconfigured,
    fun i e hdec (hs : ({ s with inputs := rest } : State).block = .configured e) =>
      ⟨?badIndex, ?rdreg, fun hi => ?unchecked⟩⟩
  case illegal => exact response_unique ht hr (performWord_of_decode_error hdec _) (raise_responses _ _)
  case precision => exact hdecided hdec (exec_init_outOfRange hv _) rfl
  case init => exact hdecided hdec (exec_init_inRange hlo hhi _) rfl
  case unconfigured => exact hdecided hdec (exec_unconfigured hi hs) rfl
  case badIndex =>
    rintro idx rfl hidx
    exact hdecided hdec (exec_rdreg_outOfRange hs hidx) rfl
  case rdreg =>
    rintro idx rfl hidx
    exact congrArg Response.status (hdecided hdec (exec_rdreg_inRange hs hidx) rfl)
  case unchecked =>
    obtain ⟨u, d, hu, hok⟩ := exec_configured_ok hs hi
    exact congrArg Response.status (hdecided hdec hu hok)

end Sys2Proof.Machine
end

section
/-! Completion and reset (`70_reset_and_hazards.md` R170, R177): every input is completed in one step, and only the
reset input leaves the block unconfigured. -/

namespace Sys2Proof.Machine

/-- Settles O10: a command word is answered once, legal or not, and the reset input leaves the responses alone. -/
theorem everyCommandCompletes : Obligations.EveryCommandCompletes := by
  refine ⟨fun s w rest hin => ?_, fun s rest hin => ⟨_, step_of_reset hin, rfl, rfl⟩⟩
  obtain ⟨t, ht, hinputs, r, hresponses⟩ := performWord_answers w { s with inputs := rest }
  exact ⟨t, r, (step_of_command hin).trans ht, hinputs, hresponses⟩

/-- R170: a step ends unconfigured only from an unconfigured block or by a reset, as a construction and the update
of a cell both leave an estimator. -/
theorem unconfigured_or_reset_of_step {s t : State} (h : step s = .next t) (ht : t.block = .unconfigured) :
    s.block = .unconfigured ∨ ∃ rest, s.inputs = .reset :: rest := by
  rcases step_block_cases h with hb | ⟨rest, hin, -⟩ | ⟨_, _, _, -, -, -, -, hb⟩ | ⟨_, _, -, hb⟩
  · exact .inl (hb.symm.trans ht)
  · exact .inr ⟨rest, hin⟩
  · exact nomatch hb.symm.trans ht
  · exact nomatch hb.symm.trans ht

/-- Settles O12: a step from `cfg = 1` to `cfg = 0` begins configured and ends unconfigured. -/
theorem resetUnconfigures : Obligations.ResetUnconfigures := by
  refine ⟨fun s rest hin => step_of_reset hin, fun s t hstep hs ht => ?_, rfl⟩
  rcases unconfigured_or_reset_of_step hstep (unconfigured_of_cfg ht) with hb | hreset
  · have hcfg : s.cfg = 0 := cfg_of_unconfigured hb
    exact absurd (hs.symm.trans hcfg) (by decide)
  · exact hreset

end Sys2Proof.Machine
end

section
/-! `RN64` is to the nearest (`43_estimate.md` R121): no multiple of the unit of `q` is nearer to `q`, and the values with
a 53-bit significand are multiples of that unit or lie below the power of two under `q`. -/

namespace Sys2Proof.Machine

/-- R121: in units of `q`, rounding moves `q` as far as to the nearest integer. -/
theorem abs_rn64_sub_eq (q : ℚ) : |rn64 q - q| = |q / unitOf q - round (q / unitOf q)| * unitOf q := by
  have hu := unitOf_pos q
  have hq := floor_add_fract_mul_unitOf q
  have hfract := Int.fract_nonneg (q / unitOf q)
  have hfract' := Int.fract_lt_one (q / unitOf q)
  rw [abs_sub_round_eq_min]
  by_cases h : RoundsUp q
  · have hhalf : 1 / 2 ≤ Int.fract (q / unitOf q) := h.elim le_of_lt fun htie => htie.1.ge
    have herr : rn64 q - q = (1 - Int.fract (q / unitOf q)) * unitOf q := by
      rw [rn64_of_roundsUp h]
      linear_combination hq
    rw [min_eq_right (by linarith), herr, abs_of_nonneg (mul_nonneg (by linarith) hu.le)]
  · have hhalf : Int.fract (q / unitOf q) ≤ 1 / 2 := not_lt.mp fun hgt => h (.inl hgt)
    have herr : q - rn64 q = Int.fract (q / unitOf q) * unitOf q := by
      rw [rn64_of_not_roundsUp h]
      linear_combination -hq
    rw [min_eq_left (by linarith), abs_sub_comm, herr, abs_of_nonneg (mul_nonneg hfract hu.le)]

/-- R121: no multiple of the unit of `q` is nearer to `q` than its rounding. -/
theorem abs_rn64_sub_le_mul_unitOf (q : ℚ) (n : ℤ) : |rn64 q - q| ≤ |n * unitOf q - q| := by
  have hu := unitOf_pos q
  calc |rn64 q - q| = |q / unitOf q - round (q / unitOf q)| * unitOf q := abs_rn64_sub_eq q
    _ ≤ |q / unitOf q - n| * unitOf q := mul_le_mul_of_nonneg_right (round_le _ n) hu.le
    _ = |n * unitOf q - q| := by
      rw [← abs_of_pos hu, ← abs_mul, abs_of_pos hu, sub_mul, div_mul_cancel₀ _ hu.ne', abs_sub_comm]

/-- A number of units `2^(j-52)` that are no smaller than the unit of `q` is a number of units of `q`. -/
theorem exists_mul_zpow_eq_mul_unitOf {q : ℚ} {j : ℤ} (hj : exponentOf q ≤ j) (k : ℤ) :
    ∃ n : ℤ, (k : ℚ) * (2 : ℚ) ^ (j - 52) = n * unitOf q := by
  refine ⟨k * 2 ^ (j - 52 - (exponentOf q - 52)).toNat, ?_⟩
  rw [Int.cast_mul, ← zpow_div_unitOf q (sub_le_sub_right hj 52), mul_assoc, div_mul_cancel₀ _ (unitOf_pos q).ne']

/-- Settles O33: a value with a 53-bit significand is a multiple of the unit of `q`, or it is below the power of two
under `q`, which is such a multiple between the two. -/
theorem roundingIsNearest : Obligations.RoundingIsNearest := by
  intro q k j hq hlo hhi
  rcases le_or_gt (exponentOf q) j with hj | hj
  · obtain ⟨n, hn⟩ := exists_mul_zpow_eq_mul_unitOf hj k
    exact hn ▸ abs_rn64_sub_le_mul_unitOf q n
  · have hlt := lt_zpow_exponentOf (k * (2 : ℚ) ^ (j - 52))
    rw [exponentOf_significand hlo hhi] at hlt
    have hbelow : k * (2 : ℚ) ^ (j - 52) ≤ 2 ^ 52 * unitOf q :=
      calc k * (2 : ℚ) ^ (j - 52) ≤ (2 : ℚ) ^ (j + 1) := hlt.le
        _ ≤ (2 : ℚ) ^ exponentOf q := zpow_le_zpow_right₀ one_le_two hj
        _ = 2 ^ 52 * unitOf q := zpow_eq_mul_zpow_sub (exponentOf q) 52
    have hpow := abs_rn64_sub_le_mul_unitOf q (2 ^ 52)
    rw [Int.cast_pow, Int.cast_ofNat] at hpow
    calc |rn64 q - q| ≤ |2 ^ 52 * unitOf q - q| := hpow
      _ ≤ |k * (2 : ℚ) ^ (j - 52) - q| :=
        abs_le_abs_of_nonpos (sub_nonpos.mpr (mul_unitOf_le hq)) (sub_le_sub_right hbelow q)

/-- Settles O34: rounding is monotone, between two powers of two and across one. -/
theorem roundingIsMonotone : Obligations.RoundingIsMonotone := fun _ _ => rn64_mono

end Sys2Proof.Machine
end

section
/-! The canonical form of the register list (log entry 7): a construction gives it, and every command and step keeps
it. -/

namespace Sys2Proof.Machine

theorem canonical_unconfigured : Block.unconfigured.Canonical := nofun

theorem canonical_configured {e : Estimator} : (Block.configured e).Canonical ↔ RegFile.wf e.regs :=
  ⟨fun h => h e rfl, fun h _ he => Block.configured.inj he ▸ h⟩

/-- A command leaves the block as it is, constructs a cleared estimator or adds a hash, which is one write. -/
theorem exec_keeps_canonical {i : Instr} {s t : State} (hs : s.block.Canonical) (ht : exec i s = .next t) :
    t.block.Canonical := by
  rcases exec_block_cases ht with hb | ⟨_, -, -, -, hb⟩ | ⟨hash, e, -, he, hb⟩
  · exact hb ▸ hs
  · exact hb ▸ canonical_configured.mpr cleared_wf
  · exact hb ▸ canonical_configured.mpr (addHash_wf (hs e he) hash)

/-- A step does nothing to the block, resets it, or executes a command. -/
theorem step_keeps_canonical {s t : State} (hs : s.block.Canonical) (ht : step s = .next t) : t.block.Canonical := by
  rcases step_cases ht with ⟨-, rfl⟩ | ⟨_, -, rfl⟩ | ⟨_, _, _, -, -, rfl⟩ | ⟨_, _, rest, -, -, hexec⟩
  · exact hs
  · exact canonical_unconfigured
  · exact hs
  · exact exec_keeps_canonical (s := { s with inputs := rest }) hs hexec

/-- R100: the list of a new estimator is canonical, whatever the block held. -/
theorem exec_init_canonical {v : BitVec 32} {s t : State} (hlo : Config.pMin ≤ v.toNat) (hhi : v.toNat ≤ Config.pMax)
    (ht : exec (.init v) s = .next t) : t.block.Canonical := by
  obtain rfl := Host.Outcome.next.inj ((exec_init_inRange hlo hhi s).symm.trans ht)
  exact canonical_configured.mpr cleared_wf

/-- Settles O58: steps and commands keep the form, and a construction establishes it. -/
theorem registerListStaysCanonical : Obligations.RegisterListStaysCanonical :=
  ⟨fun _ _ => step_keeps_canonical, fun _ _ _ => exec_keeps_canonical, fun _ _ _ => exec_init_canonical⟩

end Sys2Proof.Machine
end

section
/-! Totality of the step (`70_reset_and_hazards.md` R177, R179): with nothing issued it is idle (log entry 5), and each
kind of input is completed. -/

namespace Sys2Proof.Machine

/-- Settles O11: with no input to take, the port answers the state as it is. -/
theorem idleStepKeepsState : Obligations.IdleStepKeepsState := by
  intro s hin
  simp only [step, performNext, hin]

/-- Settles O57: the idle step, the reset and the performance of a command word all answer a next state. -/
theorem everyStepHasNextState : Obligations.EveryStepHasNextState := by
  intro s
  rcases hin : s.inputs with _ | ⟨⟨w⟩ | _, rest⟩
  · exact ⟨s, idleStepKeepsState s hin⟩
  · obtain ⟨t, ht, -⟩ := performWord_answers w { s with inputs := rest }
    exact ⟨t, (step_of_command hin).trans ht⟩
  · exact ⟨_, step_of_reset hin⟩

end Sys2Proof.Machine
end
